-- ==== Sys2Proof/Word.lean ====
section
/-! DEFINITION. The machine's plain widths (00_scope.md R8, R10): all quantities are unsigned. -/

namespace Sys2Proof

/-- A byte: a wire byte, a PB byte, `flags`, `header_length`, `sequence_number`, `acknowledgment_number`. -/
abbrev Byte := BitVec 8

/-- A 16-bit quantity: the `off`, `len` and `idx` operands, `SR.LEN`, the checksum. -/
abbrev Half := BitVec 16

/-- A 32-bit quantity: `ARG`, `SR.RETX`, `VAL`. -/
abbrev Word := BitVec 32

/-- The 40-bit command word `CMD` (30_encoding.md R60). -/
abbrev CmdWord := BitVec 40

end Sys2Proof
end

