-- ==== Sys2Proof/Config.lean ====
section
/-! DEFINITION. What is fixed for one machine (the OPEN parameter PB_BYTES, 00_scope.md R8) and the free values. -/

namespace Sys2Proof

/-- The parameters of one instance. `pbBytes` is PB_BYTES: 00_scope.md R8 leaves it open, "a model argument".
It stands in State as a field that no step writes, so a claim about every state is a claim about every size. -/
structure Config where
  pbBytes : Nat
deriving DecidableEq, Repr

/-- The bounds of 00_scope.md R8: `6 <= PB_BYTES <= 65536`. -/
def Config.wf (c : Config) : Bool :=
  decide (6 ≤ c.pbBytes) && decide (c.pbBytes ≤ 65536)

/-- 00_scope.md R8: "default 65536". -/
def Config.standard : Config := ⟨65536⟩

/-- Free value (log entry 5): `VAL` of the k-th response when its status is not OK (30_encoding.md R63:
"`VAL` is unspecified"). No body, so no proof can see a value of it. -/
opaque Config.freeVal : Nat → Word

/-- Free value (log entry 5): `VAL[7:0]` of the k-th response when it is a GETACK answer that reports absence
(30_encoding.md R64: "`VAL[7:0]` unspecified when absent"). -/
opaque Config.freeAck : Nat → Byte

end Sys2Proof
end

