-- ==== Sys2Proof/Syntax.lean ====
section
/-! DEFINITION. The instructions: one constructor for every row of spec/opcode_table.json (17 command rows of
format CMD40, 9 rows of format FLAGS8), and the encoded forms they are read from. -/

namespace Sys2Proof

/-- The eight variant tags (43_segment_variants.md; codes in 30_encoding.md R56). -/
inductive Variant where
  | syn | nul | eak | rst | clz | fin | ack | dat
deriving DecidableEq, Repr

/-- The LEN condition of a row of 30_encoding.md R55. -/
inductive LenCond where
  /-- "none" -/
  | any
  /-- "`LEN = 6`" -/
  | isMin
  /-- "`LEN != 6`" -/
  | notMin
deriving DecidableEq, Repr

/-- A row of the match/mask table of 30_encoding.md R55; `variant` is none in its last row. -/
structure VariantRow where
  variant : Option Variant
  mask    : Byte
  pattern : Byte
  len     : LenCond
deriving DecidableEq, Repr

/-- The two encodings of 30_encoding.md: the command word (R60) and the wire format of a segment (R45), whose
first byte is the flags byte that the FLAGS8 rows of the table match. -/
inductive Encoded where
  | cmd (w : CmdWord)
  | seg (img : List Byte)
deriving DecidableEq, Repr

/-- The instructions. A command carries the operands it uses (30_encoding.md R61); operand bits it does not use
are ignored. A variant row carries the wire image of a segment of that variant (log entry 8). -/
inductive Instr where
  | cksum (off len : Half)
  | parse (off len : Half)
  | build (off len : Half)
  | ser (off : Half)
  | serc (off : Half)
  | describe (off : Half)
  | getflags
  | gethlen
  | getseq
  | getack
  | getlen
  | gettype
  | getretx
  | rdhext (idx : Half)
  | rdtpay (idx : Half)
  | setretx (n : Word)
  | setack (ackn : Byte)
  | variantSyn (img : List Byte)
  | variantNul (img : List Byte)
  | variantEak (img : List Byte)
  | variantRst (img : List Byte)
  | variantClz (img : List Byte)
  | variantFin (img : List Byte)
  | variantAck (img : List Byte)
  | variantDat (img : List Byte)
  | variantNone (img : List Byte)
deriving DecidableEq, Repr

end Sys2Proof
end

