-- ==== Sys2Proof/Machine/Flags.lean ====
section
/-! DEFINITION. The flags byte: its bits (30_encoding.md R46), the variant it selects in both of the spec's forms
(the precedence list of 42_type_dispatcher.md R111, the match/mask table of 30_encoding.md R55), the tags (R56). -/

namespace Sys2Proof

/-- `MIN_HDR` (00_scope.md R8): the minimum header size, and the exact length of an ACK segment. -/
def minHdr : Nat := 6

def fSyn : Byte := 0x80
def fAck : Byte := 0x40
def fEak : Byte := 0x20
def fRst : Byte := 0x10
def fNul : Byte := 0x08
def fChk : Byte := 0x04
def fFin : Byte := 0x02
def fClz : Byte := 0x01

/-- Whether a control flag is set in a flags byte. -/
def hasFlag (flags mask : Byte) : Bool := flags &&& mask != 0

/-- `FLAGS[6]`: the acknowledgment number is present (30_encoding.md R46, R49). -/
def ackSet (flags : Byte) : Bool := flags.getLsbD 6

/-- `FLAGS[2]`: the checksum covers the whole segment (30_encoding.md R46). -/
def chkSet (flags : Byte) : Bool := flags.getLsbD 2

/-- `FLAGS | 0x40` (41_segment_facade.md R101). -/
def withAck (flags : Byte) : Byte := flags ||| fAck

/-- 42_type_dispatcher.md R111: fixed precedence, first match wins. -/
def dispatch (flags : Byte) (len : Nat) : Option Variant :=
  if hasFlag flags fSyn then some .syn
  else if hasFlag flags fNul then some .nul
  else if hasFlag flags fEak then some .eak
  else if hasFlag flags fRst then some .rst
  else if hasFlag flags fClz then some .clz
  else if hasFlag flags fFin then some .fin
  else if hasFlag flags fAck then
    if len = minHdr then some .ack else some .dat
  else none

/-- The tag codes of 30_encoding.md R56, in the order of the precedence list. -/
def Variant.tag : Variant → BitVec 3
  | .syn => 0
  | .nul => 1
  | .eak => 2
  | .rst => 3
  | .clz => 4
  | .fin => 5
  | .ack => 6
  | .dat => 7

/-- The variants whose payload is "none" (30_encoding.md R55, R59). -/
def Variant.noPayload : Variant → Bool
  | .nul | .rst | .clz | .fin | .ack => true
  | .syn | .eak | .dat => false

/-- The table of 30_encoding.md R55, row by row. -/
def variantRows : List VariantRow :=
  [ ⟨some .syn, 0x80, 0x80, .any⟩,
    ⟨some .nul, 0x88, 0x08, .any⟩,
    ⟨some .eak, 0xA8, 0x20, .any⟩,
    ⟨some .rst, 0xB8, 0x10, .any⟩,
    ⟨some .clz, 0xB9, 0x01, .any⟩,
    ⟨some .fin, 0xBB, 0x02, .any⟩,
    ⟨some .ack, 0xFB, 0x40, .isMin⟩,
    ⟨some .dat, 0xFB, 0x40, .notMin⟩,
    ⟨none,      0xFB, 0x00, .any⟩ ]

def LenCond.holds : LenCond → Nat → Bool
  | .any, _ => true
  | .isMin, len => len == minHdr
  | .notMin, len => len != minHdr

/-- "A row matches when `flags & mask = match` and the `LEN` condition holds" (30_encoding.md R55). -/
def VariantRow.hits (r : VariantRow) (flags : Byte) (len : Nat) : Bool :=
  (flags &&& r.mask == r.pattern) && r.len.holds len

/-- The variant of the first matching row; none for the last row. -/
def selectRow (flags : Byte) (len : Nat) : Option Variant :=
  (variantRows.find? (·.hits flags len)).bind (·.variant)

end Sys2Proof
end

