-- ==== Sys2Proof/WellFormed.lean ====
section
/-! DEFINITION. Which instruction terms an encoding of the spec stands for. Every command term is well-formed (its
operands have the exact widths of 30_encoding.md R60); a variant term must carry a wire image of that variant. -/

namespace Sys2Proof

/-- `6 <= LEN <= 65535` (30_encoding.md R45). -/
def imgLenOk (img : List Byte) : Bool :=
  decide (minHdr ≤ img.length) && decide (img.length ≤ 65535)

/-- The image has a legal length and its flags byte and length select `v` (30_encoding.md R55). -/
def imgSelects (v : Option Variant) (img : List Byte) : Bool :=
  imgLenOk img && (selectRow (img.getD 0 0) img.length == v)

/-- The well-formedness check of an instruction. -/
def Instr.wf : Instr → Bool
  | .cksum _ _ | .parse _ _ | .build _ _ | .ser _ | .serc _ | .describe _ => true
  | .getflags | .gethlen | .getseq | .getack | .getlen | .gettype | .getretx => true
  | .rdhext _ | .rdtpay _ | .setretx _ | .setack _ => true
  | .variantSyn img => imgSelects (some .syn) img
  | .variantNul img => imgSelects (some .nul) img
  | .variantEak img => imgSelects (some .eak) img
  | .variantRst img => imgSelects (some .rst) img
  | .variantClz img => imgSelects (some .clz) img
  | .variantFin img => imgSelects (some .fin) img
  | .variantAck img => imgSelects (some .ack) img
  | .variantDat img => imgSelects (some .dat) img
  | .variantNone img => imgSelects none img

end Sys2Proof
end

