-- ==== Sys2Proof/Decode.lean ====
section
/-! DEFINITION. The decoder, total on every encoded form and rejecting by name, and the encoder, both written from
the tables of 30_encoding.md (R55, R60, R61). -/

namespace Sys2Proof

/-- Why an encoded form stands for no instruction. -/
inductive DecodeError where
  /-- 30_encoding.md R62: an `OP` that R61 does not list. -/
  | reservedOp (op : Byte)
  /-- A segment shorter than six bytes: no variant is looked for (42_type_dispatcher.md R113). -/
  | truncated (len : Nat)
  /-- More bytes than the 16-bit LEN can say (30_encoding.md R45). -/
  | tooLong (len : Nat)
deriving DecidableEq, Repr

/-- `OP = CMD[39:32]` (30_encoding.md R60). -/
def cmdOp (w : CmdWord) : Byte := w.extractLsb' 32 8
/-- `ARG = CMD[31:0]`. -/
def cmdArg (w : CmdWord) : Word := w.extractLsb' 0 32
/-- `A = CMD[31:16]`. -/
def cmdA (w : CmdWord) : Half := w.extractLsb' 16 16
/-- `B = CMD[15:0]`. -/
def cmdB (w : CmdWord) : Half := w.extractLsb' 0 16
/-- `ARG[7:0]`, the `ackn` operand of SETACK. -/
def cmdAckn (w : CmdWord) : Byte := w.extractLsb' 0 8

/-- The operation codes of 30_encoding.md R61; a command is selected by `OP` alone. -/
def decodeCmd (w : CmdWord) : Except DecodeError Instr :=
  if cmdOp w = 0x01 then .ok (.cksum (cmdA w) (cmdB w))
  else if cmdOp w = 0x02 then .ok (.parse (cmdA w) (cmdB w))
  else if cmdOp w = 0x03 then .ok (.build (cmdA w) (cmdB w))
  else if cmdOp w = 0x04 then .ok (.ser (cmdA w))
  else if cmdOp w = 0x05 then .ok (.serc (cmdA w))
  else if cmdOp w = 0x06 then .ok (.describe (cmdA w))
  else if cmdOp w = 0x10 then .ok .getflags
  else if cmdOp w = 0x11 then .ok .gethlen
  else if cmdOp w = 0x12 then .ok .getseq
  else if cmdOp w = 0x13 then .ok .getack
  else if cmdOp w = 0x14 then .ok .getlen
  else if cmdOp w = 0x15 then .ok .gettype
  else if cmdOp w = 0x16 then .ok .getretx
  else if cmdOp w = 0x17 then .ok (.rdhext (cmdB w))
  else if cmdOp w = 0x18 then .ok (.rdtpay (cmdB w))
  else if cmdOp w = 0x20 then .ok (.setretx (cmdArg w))
  else if cmdOp w = 0x21 then .ok (.setack (cmdAckn w))
  else .error (.reservedOp (cmdOp w))

/-- The constructor of a FLAGS8 row. -/
def variantInstr : Option Variant → List Byte → Instr
  | some .syn, img => .variantSyn img
  | some .nul, img => .variantNul img
  | some .eak, img => .variantEak img
  | some .rst, img => .variantRst img
  | some .clz, img => .variantClz img
  | some .fin, img => .variantFin img
  | some .ack, img => .variantAck img
  | some .dat, img => .variantDat img
  | none,      img => .variantNone img

/-- A wire segment: the rows of 30_encoding.md R55 on its flags byte and length. -/
def decodeSeg (img : List Byte) : Except DecodeError Instr :=
  if img.length < minHdr then .error (.truncated img.length)
  else if 65535 < img.length then .error (.tooLong img.length)
  else .ok (variantInstr (selectRow (img.getD 0 0) img.length) img)

/-- The decoder. -/
def decode : Encoded → Except DecodeError Instr
  | .cmd w => decodeCmd w
  | .seg img => decodeSeg img

/-- `OP` then the 32-bit argument (30_encoding.md R60). -/
def cmdWord (op : Byte) (arg : Word) : CmdWord := op ++ arg

/-- The argument whose halves are `A` and `B`. -/
def argAB (a b : Half) : Word := a ++ b

/-- The encoder; "operand bits the command does not use are written as 0" (30_encoding.md R65). -/
def encode : Instr → Encoded
  | .cksum off len => .cmd (cmdWord 0x01 (argAB off len))
  | .parse off len => .cmd (cmdWord 0x02 (argAB off len))
  | .build off len => .cmd (cmdWord 0x03 (argAB off len))
  | .ser off => .cmd (cmdWord 0x04 (argAB off 0))
  | .serc off => .cmd (cmdWord 0x05 (argAB off 0))
  | .describe off => .cmd (cmdWord 0x06 (argAB off 0))
  | .getflags => .cmd (cmdWord 0x10 0)
  | .gethlen => .cmd (cmdWord 0x11 0)
  | .getseq => .cmd (cmdWord 0x12 0)
  | .getack => .cmd (cmdWord 0x13 0)
  | .getlen => .cmd (cmdWord 0x14 0)
  | .gettype => .cmd (cmdWord 0x15 0)
  | .getretx => .cmd (cmdWord 0x16 0)
  | .rdhext idx => .cmd (cmdWord 0x17 (argAB 0 idx))
  | .rdtpay idx => .cmd (cmdWord 0x18 (argAB 0 idx))
  | .setretx n => .cmd (cmdWord 0x20 n)
  | .setack ackn => .cmd (cmdWord 0x21 (ackn.setWidth 32))
  | .variantSyn img => .seg img
  | .variantNul img => .seg img
  | .variantEak img => .seg img
  | .variantRst img => .seg img
  | .variantClz img => .seg img
  | .variantFin img => .seg img
  | .variantAck img => .seg img
  | .variantDat img => .seg img
  | .variantNone img => .seg img

/-- The encoded form of a row of spec/opcode_table.json: a row of eight bits is a flags byte, the first byte of a
six-byte segment whose other bytes are zero (log entry 9); every wider row is a command word. -/
def tableEncoded (nbits w : Nat) : Encoded :=
  if nbits ≤ 8 then .seg (BitVec.ofNat 8 (w % 2 ^ nbits) :: List.replicate 5 0)
  else .cmd (BitVec.ofNat 40 (w % 2 ^ nbits))

/-- The instruction the decoder reads from a word numbered as the opcode table numbers it. -/
def decodeTableWord (nbits w : Nat) : Option Instr :=
  match decode (tableEncoded nbits w) with
  | .ok i => some i
  | .error _ => none

end Sys2Proof
end

