-- ==== Sys2Proof/Machine/State.lean ====
section
/-! DEFINITION. The state of one instance as plain data (10_state.md), its response, its stop reasons and its
state after reset. -/

namespace Sys2Proof.Machine

/-- The Segment Record while it holds a segment (10_state.md R12): every field of SR but `SR.VALID`. -/
structure Record where
  /-- `SR.FLAGS`, wire byte 0 (R14). -/
  flags : Byte
  /-- `SR.HLEN`, wire byte 1 (R14). -/
  hlen  : Byte
  /-- `SR.SEQ`, wire byte 2 (R14). -/
  seq   : Byte
  /-- `SR.ACKN`, a number or absent (R15: "A model holds it as an option type"). -/
  ackn  : Option Byte
  /-- `SR.LEN`, the total length (R18). -/
  len   : Half
  /-- `SR.TYPE`, the variant tag (R19). -/
  type  : Variant
  /-- `SR.HEXT`, the header extension (R16). -/
  hext  : List Byte
  /-- `SR.TPAY`, the trailing payload (R17). -/
  tpay  : List Byte
  /-- `SR.RETX`, the retransmission counter (R20). -/
  retx  : Word
deriving DecidableEq, Repr

/-- The packet buffer (10_state.md R23): (address, byte) pairs, addresses strictly rising, no pair equal to what an
unlisted address reads as (`Memory.unlisted` in Machine/Ops.lean; `Memory.wf` states the form). -/
abbrev Memory := List Host.Cell

/-- The status codes of a response (30_encoding.md R63); a fourth code "is never produced". -/
inductive Status where
  | ok | invalid | refused
deriving DecidableEq, Repr

/-- A response (30_encoding.md R63, R64). Where the spec leaves `VAL` unspecified "a model gives no value": the
constructor carries none, and `Response.word` (Machine/Ops.lean) fills those bits with a free value. -/
inductive Response where
  /-- Status OK with a whole `VAL`. -/
  | ok (val : Word)
  /-- Status OK, GETACK on a record without acknowledgment number: `VAL[8] = 0`, `VAL[7:0]` unspecified. -/
  | okAbsent
  /-- Status INVALID, `VAL` unspecified. -/
  | invalid
  /-- Status REFUSED, `VAL` unspecified. -/
  | refused
deriving DecidableEq, Repr

/-- What the host does next (10_state.md R22, 20_memory.md R30). -/
inductive HostAction where
  /-- Presents a command word at the port, or (the model's own form for a FLAGS8 row, log entry 8) a wire segment. -/
  | present (e : Encoded)
  /-- Writes one byte of PB between two commands. The address is an exact number, never taken modulo 2^16; where it
  names no byte of PB is log entry 11. -/
  | pbWrite (a : Nat) (b : Byte)
deriving DecidableEq, Repr

/-- The state of one instance, with what the host will do next. -/
structure State where
  /-- The instance's parameters (00_scope.md R8); no step writes them. -/
  cfg    : Config
  /-- SR (10_state.md R12, R13): `some r` when `SR.VALID = 1`; none when `SR.VALID = 0` and "every other field of
  SR holds no value (not zero: no value)" (log entry 1). -/
  sr     : Option Record
  /-- PB (10_state.md R23). -/
  pb     : Memory
  /-- The host's remaining actions, in order: host state, not block state (10_state.md R22, log entry 3). -/
  host   : List HostAction
  /-- The response the last step produced, if it produced one: an output, "not readable later" (R24, log entry 4). -/
  rsp    : Option Response
  /-- The model's own count of responses; it indexes the free values of `Response.word` (log entry 5). -/
  served : Nat
deriving DecidableEq, Repr

/-- `SR.VALID` (10_state.md R13). -/
def State.valid (s : State) : Bool := s.sr.isSome

/-- Why the machine stops with a fault. The block itself never does (60_exceptions.md R140: every command ends in a
response); both reasons are about a host action that the spec gives nobody a way to take. -/
inductive Fault where
  /-- Raised by a host write to an address that is not in `0 .. PB_BYTES-1` (20_memory.md R38). Safe: the model
  stops where the spec has no such address (log entry 11). -/
  | hostOutsidePb
  /-- Raised by a presented segment of more than 65535 bytes, which no 16-bit `len` can name (30_encoding.md R45).
  Safe (log entry 12). -/
  | segmentTooLong
deriving DecidableEq, Repr

/-- Why an instruction has no meaning. -/
inductive Refusal where
  /-- Raised by an arm of `exec` that has no meaning yet. No arm uses it. Safe. -/
  | notModelled (mnemonic : String)
  /-- Raised by a variant row's meaning on a term whose image is not a segment of that row, which the decoder never
  produces (log entry 17). Safe. -/
  | illFormed
deriving DecidableEq, Repr

/-- The state after reset for given parameters and a given content of PB: 10_state.md R28, "a model takes the
initial PB as an argument". -/
def State.resetWith (cfg : Config) (pb : Memory) : State :=
  { cfg := cfg, sr := none, pb := pb, host := [], rsp := none, served := 0 }

/-- The state after reset (10_state.md R28, 70_reset_and_hazards.md R161): `SR.VALID = 0`, no field of SR with a
value, the port idle, no response. PB_BYTES is the spec's default and PB lists nothing (log entries 6 and 7). -/
def State.reset : State := State.resetWith Config.standard []

end Sys2Proof.Machine
end

