-- ==== Sys2Proof/Machine/Ops.lean ====
section
/-! DEFINITION. The shared operations: reading and writing PB, assembling and splitting 16-bit words, producing a
response, and the two unsuccessful ends of a command (60_exceptions.md), each said once. -/

namespace Sys2Proof.Machine

/-- What an address of PB that nothing lists reads as. DESIGN CHOICE, unsafe (log entry 7): 10_state.md R28 leaves PB
unspecified after reset. -/
def Memory.unlisted : Byte := 0x00

/-- The canonical form from address `lo` on: addresses strictly rising, no entry equal to `Memory.unlisted`. -/
def Memory.wfFrom : Nat → Memory → Bool
  | _, [] => true
  | lo, (a, b) :: m => decide (lo ≤ a) && (b != Memory.unlisted) && Memory.wfFrom (a + 1) m

/-- The canonical form of PB. -/
def Memory.wf (m : Memory) : Bool := Memory.wfFrom 0 m

/-- Every listed address is below `n`. -/
def Memory.below (n : Nat) (m : Memory) : Bool := m.all fun c => decide (c.1 < n)

/-- `PB[a]` (00_scope.md R11). -/
def Memory.read : Memory → Nat → Byte
  | [], _ => Memory.unlisted
  | (k, b) :: m, a => if k = a then b else Memory.read m a

/-- `PB[a] <- b`, keeping the canonical form. -/
def Memory.write : Memory → Nat → Byte → Memory
  | [], a, b => if b = Memory.unlisted then [] else [(a, b)]
  | (k, c) :: m, a, b =>
    if a < k then
      if b = Memory.unlisted then (k, c) :: m else (a, b) :: (k, c) :: m
    else if a = k then
      if b = Memory.unlisted then m else (a, b) :: m
    else (k, c) :: Memory.write m a b

/-- `MemRead(a, n)` (00_scope.md R11): the n bytes from address a, lowest address first. -/
def Memory.readRange (m : Memory) : Nat → Nat → List Byte
  | _, 0 => []
  | a, n + 1 => m.read a :: m.readRange (a + 1) n

/-- `MemWrite(a, n, v)` (00_scope.md R11), n being the length of v. -/
def Memory.writeRange (m : Memory) : Nat → List Byte → Memory
  | _, [] => m
  | a, b :: bs => (m.write a b).writeRange (a + 1) bs

/-- `be16(hi, lo)` (00_scope.md R11, 20_memory.md R31). -/
def be16 (hi lo : Byte) : Nat := (hi.toNat <<< 8) ||| lo.toNat

/-- `c[15:8]`, stored at the lower address (20_memory.md R31). -/
def hiByte (c : Half) : Byte := c.extractLsb' 8 8

/-- `c[7:0]`, stored at the higher address (20_memory.md R31). -/
def loByte (c : Half) : Byte := c.extractLsb' 0 8

/-- The n bytes of `b` from index `off` on (fewer where `b` ends). -/
def slice (b : List Byte) (off n : Nat) : List Byte := (b.drop off).take n

/-- The status of a response (30_encoding.md R63). -/
def Response.status : Response → Status
  | .ok _ => .ok
  | .okAbsent => .ok
  | .invalid => .invalid
  | .refused => .refused

/-- "`ST` codes: 0 = OK, 1 = INVALID, 2 = REFUSED" (30_encoding.md R63). -/
def Status.code : Status → BitVec 2
  | .ok => 0
  | .invalid => 1
  | .refused => 2

/-- `VAL` of the k-th response; what the spec leaves unspecified is the free value of index k (log entry 5). -/
def Response.val (k : Nat) : Response → Word
  | .ok v => v
  | .okAbsent => (Config.freeAck k).setWidth 32
  | .invalid => Config.freeVal k
  | .refused => Config.freeVal k

/-- The 34-bit response word: `RSP[33:32] = ST`, `RSP[31:0] = VAL` (30_encoding.md R63). -/
def Response.word (k : Nat) (r : Response) : BitVec 34 := r.status.code ++ r.val k

/-- The response word at the port after a step, if the step produced a response. -/
def State.rspWord (s : State) : Option (BitVec 34) := s.rsp.map (Response.word s.served)

/-- What a step answers. -/
abbrev Result := Host.Outcome State Fault Refusal

/-- Produces the response of a command (10_state.md R24). -/
def State.respond (s : State) (r : Response) : State :=
  { s with rsp := some r, served := s.served + 1 }

/-- `return v` (00_scope.md R11): status OK and value v. -/
def answerOk (s : State) (v : Word) : Result := .next (s.respond (.ok v))

/-- `raise Refused` (00_scope.md R11, 60_exceptions.md R145): nothing changes, and the port takes the next command. -/
def answerRefused (s : State) : Result := .next (s.respond .refused)

/-- `SR.VALID <- 0`, "and with it every other field of SR loses its value" (60_exceptions.md R143). -/
def State.clearSr (s : State) : State := { s with sr := none }

/-- `raise Invalid` (00_scope.md R11, 60_exceptions.md R143): the one state effect of a failed decode. PB is unchanged
and the port takes the next command; there is no handler and nothing to return from (R152). -/
def answerInvalid (s : State) : Result := .next (s.clearSr.respond .invalid)

/-- Puts a segment into SR (`SR.VALID <- 1`, 10_state.md R13). -/
def State.load (s : State) (r : Record) : State := { s with sr := some r }

/-- Stores bytes from address `a` on in PB. -/
def State.store (s : State) (a : Nat) (bs : List Byte) : State := { s with pb := s.pb.writeRange a bs }

end Sys2Proof.Machine
end

