-- ==== Sys2Proof/Machine/Operands.lean ====
section
/-! DEFINITION. The operand forms and the checks the spec attaches to them: a range of PB (60_exceptions.md R146), a
record that must be there (R147), an index into a region (R149), and the widening of a result (30_encoding.md R64). -/

namespace Sys2Proof.Machine

/-- The range `off .. off+n-1` lies in PB: the sum "is exact (17 bits or more), never wrapped" and
"`off + len = PB_BYTES` is in range" (60_exceptions.md R146). -/
def inPb (s : State) (off n : Nat) : Bool := decide (off + n ≤ s.cfg.pbBytes)

/-- 60_exceptions.md R146: a command whose range passes the end of PB is REFUSED before any access. -/
def withRange (s : State) (off n : Nat) (body : Result) : Result :=
  if inPb s off n then body else answerRefused s

/-- 60_exceptions.md R147: a command that reads SR is REFUSED while `SR.VALID = 0`. -/
def withRecord (s : State) (body : Record → Result) : Result :=
  match s.sr with
  | none => answerRefused s
  | some r => body r

/-- 60_exceptions.md R149: the byte `idx` of a region of n bytes; an index past the region is REFUSED. -/
def readRegion (s : State) (region : List Byte) (n idx : Nat) : Result :=
  if idx < n then answerOk s ((region.getD idx 0).setWidth 32) else answerRefused s

/-- `zext_32` of an 8-bit field. -/
def valByte (b : Byte) : Word := b.setWidth 32

/-- `zext_32` of a 16-bit quantity. -/
def valHalf (h : Half) : Word := h.setWidth 32

/-- `zext_32` of a variant tag: `VAL[2:0]` (30_encoding.md R64). -/
def valTag (t : Variant) : Word := t.tag.setWidth 32

/-- `VAL[8] = 1`, `VAL[7:0]` = the number (30_encoding.md R64, GETACK). -/
def valAck (a : Byte) : Word := 0x100 ||| a.setWidth 32

end Sys2Proof.Machine
end

