-- ==== Sys2Proof/Machine/Accessors.lean ====
section
/-! DEFINITION. The accessors and the two setters of the segment facade (41_segment_facade.md R92 to R102). -/

namespace Sys2Proof.Machine

/-- GETFLAGS (41_segment_facade.md R92). -/
def execGetflags (s : State) : Result := withRecord s fun r => answerOk s (valByte r.flags)

/-- GETHLEN (41_segment_facade.md R93). -/
def execGethlen (s : State) : Result := withRecord s fun r => answerOk s (valByte r.hlen)

/-- GETSEQ (41_segment_facade.md R94). -/
def execGetseq (s : State) : Result := withRecord s fun r => answerOk s (valByte r.seq)

/-- GETACK (41_segment_facade.md R95): absence "is an answer, not an error". -/
def execGetack (s : State) : Result :=
  withRecord s fun r =>
    if ackSet r.flags then answerOk s (valAck (r.ackn.getD 0)) else .next (s.respond .okAbsent)

/-- GETLEN (41_segment_facade.md R97). -/
def execGetlen (s : State) : Result := withRecord s fun r => answerOk s (valHalf r.len)

/-- GETTYPE (41_segment_facade.md R96). -/
def execGettype (s : State) : Result := withRecord s fun r => answerOk s (valTag r.type)

/-- GETRETX (41_segment_facade.md R98). -/
def execGetretx (s : State) : Result := withRecord s fun r => answerOk s r.retx

/-- RDHEXT idx (41_segment_facade.md R99). -/
def execRdhext (idx : Half) (s : State) : Result :=
  withRecord s fun r => readRegion s r.hext (r.hlen.toNat - 6) idx.toNat

/-- RDTPAY idx (41_segment_facade.md R102). -/
def execRdtpay (idx : Half) (s : State) : Result :=
  withRecord s fun r => readRegion s r.tpay (r.len.toNat - r.hlen.toNat) idx.toNat

/-- SETRETX n (41_segment_facade.md R100). -/
def execSetretx (n : Word) (s : State) : Result :=
  withRecord s fun r => answerOk (s.load { r with retx := n }) 0

/-- SETACK ackn (41_segment_facade.md R101). -/
def execSetack (ackn : Byte) (s : State) : Result :=
  withRecord s fun r => answerOk (s.load { r with flags := withAck r.flags, ackn := some ackn }) 0

end Sys2Proof.Machine
end

