-- ==== Sys2Proof/Machine/Checksum.lean ====
section
/-! DEFINITION. The checksum engine (40_checksum_engine.md): `wsum`, `fold`, `cksum`, `cov`, `inject`, `verify`, and
the command CKSUM. -/

namespace Sys2Proof.Machine

/-- `wsum` (40_checksum_engine.md R71) of a byte range: the exact sum of its big-endian 16-bit words, paired from its
start; an odd last byte is the high-order byte of a last word. -/
def wsum : List Byte → Nat
  | [] => 0
  | [b] => b.toNat <<< 8
  | hi :: lo :: bs => be16 hi lo + wsum bs

/-- The loop of `fold` with a bound on its rounds. -/
def foldLoop : Nat → Nat → Nat
  | 0, s => s
  | k + 1, s => if 0xFFFF < s then foldLoop k ((s &&& 0xFFFF) + (s >>> 16)) else s

/-- `fold` (40_checksum_engine.md R72, 90_conflicts.md C2): end-around carry, repeated until none remains. Each round
makes the sum smaller, so `s` rounds are always enough. -/
def fold (s : Nat) : Nat := foldLoop s s

/-- `cksum` (40_checksum_engine.md R72): the one's complement of the folded word sum. -/
def cksum (b : List Byte) : Half := ~~~ BitVec.ofNat 16 (fold (wsum b))

/-- `cov` (40_checksum_engine.md R76): how many bytes the checksum covers. -/
def cov (flags : Byte) (hlen len : Nat) : Nat := if chkSet flags then len else hlen

/-- Writes the two bytes of the checksum field `[HLEN-2, HLEN)`, high byte first (30_encoding.md R51). -/
def setCkField (img : List Byte) (hlen : Nat) (c : Half) : List Byte :=
  (img.set (hlen - 2) (hiByte c)).set (hlen - 1) (loByte c)

/-- `inject` (40_checksum_engine.md R77): zero the field, sum the coverage region, write the result into the field. -/
def inject (img : List Byte) (flags : Byte) (hlen : Nat) : List Byte :=
  let zeroed := setCkField img hlen 0
  setCkField img hlen (cksum (zeroed.take (cov flags hlen img.length)))

/-- `verify` (40_checksum_engine.md R78): the zero-sum test over the coverage region, the received field in place. -/
def verify (img : List Byte) (flags : Byte) (hlen : Nat) : Bool :=
  cksum (img.take (cov flags hlen img.length)) == 0

/-- CKSUM off, len (40_checksum_engine.md R79). -/
def execCksum (off len : Half) (s : State) : Result :=
  withRange s off.toNat len.toNat
    (answerOk s (valHalf (cksum (s.pb.readRange off.toNat len.toNat))))

end Sys2Proof.Machine
end

