-- ==== Sys2Proof/Machine/Segment.lean ====
section
/-! DEFINITION. A segment as a wire image and as a record: `shape_ok` (42_type_dispatcher.md R112), `fields`
(30_encoding.md R54), `image` (41_segment_facade.md R87), and the decode that PARSE, BUILD and the variants share. -/

namespace Sys2Proof.Machine

/-- Wire byte 0, `flags` (30_encoding.md R45). -/
def imgFlags (img : List Byte) : Byte := img.getD 0 0
/-- Wire byte 1, `header_length`. -/
def imgHlen (img : List Byte) : Byte := img.getD 1 0
/-- Wire byte 2, `sequence_number`. -/
def imgSeq (img : List Byte) : Byte := img.getD 2 0
/-- Wire byte 3, part of the meaning only when `flags[6] = 1` (30_encoding.md R49). -/
def imgAckn (img : List Byte) : Option Byte := if ackSet (imgFlags img) then some (img.getD 3 0) else none

/-- `shape_ok` (42_type_dispatcher.md R112). -/
def shapeOk (t : Variant) (hlen len : Nat) : Bool :=
  if hlen < minHdr then false
  else if len < hlen then false
  else if t.noPayload then hlen == minHdr && len == minHdr
  else true

/-- `fields` (30_encoding.md R54) together with `SR.LEN <- len`, `SR.TYPE <- t`, `SR.RETX <- 0`. -/
def recordOf (t : Variant) (img : List Byte) : Record :=
  { flags := imgFlags img
    hlen  := imgHlen img
    seq   := imgSeq img
    ackn  := imgAckn img
    len   := BitVec.ofNat 16 img.length
    type  := t
    hext  := slice img 4 ((imgHlen img).toNat - 6)
    tpay  := img.drop (imgHlen img).toNat
    retx  := 0 }

/-- The decode contract common to all variants (43_segment_variants.md R125), after the variant is known: the shape
test, the checksum where `checked`, the fields into SR; the answer is the tag. -/
def decodeAs (checked : Bool) (t : Variant) (img : List Byte) (s : State) : Result :=
  if !shapeOk t (imgHlen img).toNat img.length then answerInvalid s
  else if checked && !verify img (imgFlags img) (imgHlen img).toNat then answerInvalid s
  else answerOk (s.load (recordOf t img)) (valTag t)

/-- The decode of an image from its length test on (42_type_dispatcher.md R113, 41_segment_facade.md R86): PARSE
with the checksum test, BUILD without it. -/
def decodeImage (checked : Bool) (img : List Byte) (s : State) : Result :=
  if img.length < minHdr then answerInvalid s
  else
    match dispatch (imgFlags img) img.length with
    | none => answerInvalid s
    | some t => decodeAs checked t img s

/-- Wire byte 3 of a record's image: the number when `SR.FLAGS[6] = 1`, else 0x00 (41_segment_facade.md R87,
30_encoding.md R49). A record with the bit set and no number breaks 10_state.md R21 (log entry 13). -/
def Record.ackByte (r : Record) : Byte := if ackSet r.flags then r.ackn.getD 0 else 0

/-- `image(SR)` (41_segment_facade.md R87): `SR.LEN` bytes, zero where nothing is placed, the checksum field zero. -/
def Record.image (r : Record) : List Byte :=
  let body := [r.flags, r.hlen, r.seq, r.ackByte] ++ r.hext ++ [0, 0] ++ r.tpay
  (body ++ List.replicate (r.len.toNat - body.length) 0).take r.len.toNat

/-- The image with the checksum injected (41_segment_facade.md R90). -/
def Record.wire (r : Record) : List Byte := inject r.image r.flags r.hlen.toNat

end Sys2Proof.Machine
end

