-- ==== Sys2Proof/Machine/Dispatcher.lean ====
section
/-! DEFINITION. The type dispatcher and header parser: the command PARSE (42_type_dispatcher.md). -/

namespace Sys2Proof.Machine

/-- PARSE off, len (42_type_dispatcher.md R113). -/
def execParse (off len : Half) (s : State) : Result :=
  withRange s off.toNat len.toNat
    (decodeImage true (s.pb.readRange off.toNat len.toNat) s)

end Sys2Proof.Machine
end

