-- ==== Sys2Proof/Machine/Facade.lean ====
section
/-! DEFINITION. The segment facade's construction, serialisation and diagnostic commands (41_segment_facade.md R86,
R88, R90, R103). -/

namespace Sys2Proof.Machine

/-- BUILD off, len (41_segment_facade.md R86): PARSE without the checksum test. -/
def execBuild (off len : Half) (s : State) : Result :=
  withRange s off.toNat len.toNat
    (decodeImage false (s.pb.readRange off.toNat len.toNat) s)

/-- SER off (41_segment_facade.md R88). -/
def execSer (off : Half) (s : State) : Result :=
  withRecord s fun r =>
    withRange s off.toNat r.len.toNat
      (answerOk (s.store off.toNat r.image) (valHalf r.len))

/-- SERC off (41_segment_facade.md R90). -/
def execSerc (off : Half) (s : State) : Result :=
  withRecord s fun r =>
    withRange s off.toNat r.len.toNat
      (answerOk (s.store off.toNat r.wire) (valHalf r.len))

/-- "one ASCII byte per character" (41_segment_facade.md R103). -/
def ascii (c : Char) : Byte := BitVec.ofNat 8 c.toNat

/-- `name` (41_segment_facade.md R103). -/
def variantName : Variant → List Char
  | .syn => ['S', 'Y', 'N']
  | .nul => ['N', 'U', 'L']
  | .eak => ['E', 'A', 'K']
  | .rst => ['R', 'S', 'T']
  | .clz => ['C', 'L', 'Z']
  | .fin => ['F', 'I', 'N']
  | .ack => ['A', 'C', 'K']
  | .dat => ['D', 'A', 'T']

/-- The ASCII digit of a number below ten. -/
def digit (v : Nat) : Byte := BitVec.ofNat 8 (0x30 + v)

/-- The decimal digits of v, with a bound on their number. -/
def decLoop : Nat → Nat → List Byte
  | 0, v => [digit (v % 10)]
  | k + 1, v => if v < 10 then [digit v] else decLoop k (v / 10) ++ [digit (v % 10)]

/-- `dec` (41_segment_facade.md R103): decimal ASCII digits, no sign, no leading zeros, no padding. -/
def dec (v : Nat) : List Byte := decLoop v v

/-- The text of DESCRIBE (41_segment_facade.md R103). -/
def Record.text (r : Record) : List Byte :=
  (variantName r.type).map ascii
    ++ [' ', '[', ' ', 'S', 'E', 'Q', ' ', '=', ' '].map ascii
    ++ dec r.seq.toNat
    ++ [',', ' ', 'A', 'C', 'K', ' ', '=', ' '].map ascii
    ++ (if ackSet r.flags then dec r.ackByte.toNat else ['N', '/', 'A'].map ascii)
    ++ [',', ' ', 'L', 'E', 'N', ' ', '=', ' '].map ascii
    ++ dec r.len.toNat
    ++ [' ', ']'].map ascii

/-- DESCRIBE off (41_segment_facade.md R103). -/
def execDescribe (off : Half) (s : State) : Result :=
  withRecord s fun r =>
    withRange s off.toNat r.text.length
      (answerOk (s.store off.toNat r.text) (BitVec.ofNat 32 r.text.length))

end Sys2Proof.Machine
end

