-- ==== Sys2Proof/Machine/Variants.lean ====
section
/-! DEFINITION. The nine FLAGS8 rows: the decode of a wire segment by the variant its flags byte selects
(43_segment_variants.md R125 to R133, 30_encoding.md R57), the same decode PARSE makes of bytes of PB (log entry 8). -/

namespace Sys2Proof.Machine

/-- The decode of a segment of variant `t`. A term whose image the row does not select stands for no segment of it
and has no meaning (log entry 17). -/
def runVariant (t : Variant) (img : List Byte) (s : State) : Result :=
  if imgSelects (some t) img then decodeAs true t img s else .refused .illFormed

/-- SYN (43_segment_variants.md R126). -/
def execVariantSyn (img : List Byte) (s : State) : Result := runVariant .syn img s

/-- NUL (43_segment_variants.md R127). -/
def execVariantNul (img : List Byte) (s : State) : Result := runVariant .nul img s

/-- EAK (43_segment_variants.md R128). -/
def execVariantEak (img : List Byte) (s : State) : Result := runVariant .eak img s

/-- RST (43_segment_variants.md R129). -/
def execVariantRst (img : List Byte) (s : State) : Result := runVariant .rst img s

/-- CLZ (43_segment_variants.md R130). -/
def execVariantClz (img : List Byte) (s : State) : Result := runVariant .clz img s

/-- FIN (43_segment_variants.md R131). -/
def execVariantFin (img : List Byte) (s : State) : Result := runVariant .fin img s

/-- ACK (43_segment_variants.md R132). -/
def execVariantAck (img : List Byte) (s : State) : Result := runVariant .ack img s

/-- DAT (43_segment_variants.md R133). -/
def execVariantDat (img : List Byte) (s : State) : Result := runVariant .dat img s

/-- A segment that selects no variant (30_encoding.md R57): "decoding fails with an "invalid segment" condition". -/
def execVariantNone (img : List Byte) (s : State) : Result :=
  if imgSelects none img then answerInvalid s else .refused .illFormed

end Sys2Proof.Machine
end

