-- ==== Sys2Proof/Machine/Dispatch.lean ====
section
/-! DEFINITION. One arm per instruction. -/

namespace Sys2Proof.Machine

def exec (i : Instr) (s : State) : Host.Outcome State Fault Refusal :=
  match i with
  | .cksum off len => Sys2Proof.Machine.execCksum off len s
  | .parse off len => Sys2Proof.Machine.execParse off len s
  | .build off len => Sys2Proof.Machine.execBuild off len s
  | .ser off => Sys2Proof.Machine.execSer off s
  | .serc off => Sys2Proof.Machine.execSerc off s
  | .describe off => Sys2Proof.Machine.execDescribe off s
  | .getflags => Sys2Proof.Machine.execGetflags s
  | .gethlen => Sys2Proof.Machine.execGethlen s
  | .getseq => Sys2Proof.Machine.execGetseq s
  | .getack => Sys2Proof.Machine.execGetack s
  | .getlen => Sys2Proof.Machine.execGetlen s
  | .gettype => Sys2Proof.Machine.execGettype s
  | .getretx => Sys2Proof.Machine.execGetretx s
  | .rdhext idx => Sys2Proof.Machine.execRdhext idx s
  | .rdtpay idx => Sys2Proof.Machine.execRdtpay idx s
  | .setretx n => Sys2Proof.Machine.execSetretx n s
  | .setack ackn => Sys2Proof.Machine.execSetack ackn s
  | .variantSyn img => Sys2Proof.Machine.execVariantSyn img s
  | .variantNul img => Sys2Proof.Machine.execVariantNul img s
  | .variantEak img => Sys2Proof.Machine.execVariantEak img s
  | .variantRst img => Sys2Proof.Machine.execVariantRst img s
  | .variantClz img => Sys2Proof.Machine.execVariantClz img s
  | .variantFin img => Sys2Proof.Machine.execVariantFin img s
  | .variantAck img => Sys2Proof.Machine.execVariantAck img s
  | .variantDat img => Sys2Proof.Machine.execVariantDat img s
  | .variantNone img => Sys2Proof.Machine.execVariantNone img s

end Sys2Proof.Machine
end

