-- ==== Sys2Proof/Machine/Port.lean ====
section
/-! DEFINITION. The command port and the host's side of it: taking the host's next action, decoding what it presents,
running it, and the host's own accesses to PB (10_state.md R24, 20_memory.md R30). -/

namespace Sys2Proof.Machine

/-- What the block does with an encoded form presented to it: it runs the decoded instruction; a reserved `OP` is
REFUSED (60_exceptions.md R148); a segment shorter than six bytes is INVALID (42_type_dispatcher.md R113). -/
def serve (e : Encoded) (s : State) : Result :=
  match decode e with
  | .ok i => exec i s
  | .error (.reservedOp _) => answerRefused s
  | .error (.truncated _) => answerInvalid s
  | .error (.tooLong _) => .fault .segmentTooLong

/-- A host write of one byte of PB between commands (20_memory.md R30). At an address that does not exist it faults,
the model's choice (DESIGN CHOICE, safe, log entry 11). -/
def hostWrite (a : Nat) (b : Byte) (s : State) : Result :=
  if inPb s a 1 then .next (s.store a [b]) else .fault .hostOutsidePb

/-- The state in which the block takes an action: that action is off the host's list, and the previous response,
which "is not readable later" (10_state.md R24), is gone. -/
def State.taking (s : State) (rest : List HostAction) : State := { s with host := rest, rsp := none }

/-- One step: the host's next action, or an idle step that keeps SR and PB (60_exceptions.md R159). -/
def runNext (s : State) : Result :=
  match s.host with
  | [] => .next (s.taking [])
  | .present e :: rest => serve e (s.taking rest)
  | .pbWrite a b :: rest => hostWrite a b (s.taking rest)

/-- A host read of n bytes of PB: an observation, it has no effect (20_memory.md R30, R37). The spec is silent on a read
that passes the last address of PB. DESIGN CHOICE, safe (log entry 18): it gives no value, the bytes that exist
included. -/
def State.hostRead (s : State) (a n : Nat) : Option (List Byte) :=
  if inPb s a n then some (s.pb.readRange a n) else none

/-- The host's line `PB[a..] = b0 b1 ...` (30_encoding.md R65) as its single-byte writes, at ascending addresses. The
spec is silent on a line that runs past the last address of PB. DESIGN CHOICE, safe (log entry 11): no address wraps,
the bytes that fit are written and the first one past the end faults. -/
def hostWrites : Nat → List Byte → List HostAction
  | _, [] => []
  | a, b :: bs => .pbWrite a b :: hostWrites (a + 1) bs

/-- Puts an encoded form at the head of the host's list. -/
def State.offer (s : State) (e : Encoded) : State := { s with host := .present e :: s.host }

end Sys2Proof.Machine
end

