-- ==== Sys2Proof/Machine/Step.lean ====
section
/-! DEFINITION. The step function, and how an opcode-table word comes to be the next instruction. -/

namespace Sys2Proof.Machine

/-- One step of the machine. -/
def step (s : State) : Host.Outcome State Fault Refusal := runNext s

/-- `s` with the word presented next (log entry 10). -/
def State.withFetchWord (s : State) (nbits w : Nat) : State := s.offer (tableEncoded nbits w)

end Sys2Proof.Machine
end

