-- ==== Sys2Proof/Safety.lean ====
section
/-! DEFINITION. What a good state is (the invariants of 10_state.md R21 and of PB), in the terms the claims use. -/

namespace Sys2Proof.Machine

/-- The invariants of 10_state.md R21 on a record. -/
def Record.wf (r : Record) : Bool :=
  decide (6 ≤ r.hlen.toNat) && decide (r.hlen.toNat ≤ r.len.toNat)
    && decide (r.hext.length = r.hlen.toNat - 6)
    && decide (r.tpay.length = r.len.toNat - r.hlen.toNat)
    && (dispatch r.flags r.len.toNat == some r.type)
    && shapeOk r.type r.hlen.toNat r.len.toNat
    && (r.ackn.isSome == ackSet r.flags)

/-- PB is in canonical form and lists only addresses that exist (20_memory.md R38). -/
def State.pbWf (s : State) : Bool := s.pb.wf && s.pb.below s.cfg.pbBytes

/-- The invariant of the machine: legal parameters (00_scope.md R8), PB as above, and a record, if there is one,
that meets 10_state.md R21. -/
def State.wf (s : State) : Bool := s.cfg.wf && s.pbWf && s.sr.all Record.wf

/-- The state a result leads to, if it leads to one. -/
def nextOf {α : Type} : Host.Outcome α Fault Refusal → Option α
  | .next s => some s
  | .fault _ => none
  | .refused _ => none

/-- The byte at index k of a record's image, place by place as 41_segment_facade.md R87 and the layout of
30_encoding.md R45 give it. -/
def Record.byteAt (r : Record) (k : Nat) : Byte :=
  if k = 0 then r.flags
  else if k = 1 then r.hlen
  else if k = 2 then r.seq
  else if k = 3 then (if r.flags.getLsbD 6 then r.ackn.getD 0 else 0x00)
  else if k + 2 < r.hlen.toNat then r.hext.getD (k - 4) 0
  else if k < r.hlen.toNat then 0x00
  else r.tpay.getD (k - r.hlen.toNat) 0

/-- The record that 30_encoding.md R54 makes of the `len` bytes `byte 0, byte 1, ...` of a segment of variant `t`, with
`SR.RETX` 0 (10_state.md R20). -/
def wireRecord (t : Variant) (len : Half) (byte : Nat → Byte) : Record :=
  let h := (byte 1).toNat
  { flags := byte 0
    hlen  := byte 1
    seq   := byte 2
    ackn  := if (byte 0).getLsbD 6 then some (byte 3) else none
    len   := len
    type  := t
    hext  := (List.range (h - 6)).map fun k => byte (4 + k)
    tpay  := (List.range (len.toNat - h)).map fun k => byte (h + k)
    retx  := 0 }

/-- The n bytes `byte 0 .. byte (n-1)`. -/
def bytesOf (n : Nat) (byte : Nat → Byte) : List Byte := (List.range n).map byte

/-- The conditions of 60_exceptions.md R146 (range), R147 (empty record) and R149 (index) on an instruction. -/
def refusedOn (s : State) : Instr → Bool
  | .cksum off len => decide (s.cfg.pbBytes < off.toNat + len.toNat)
  | .parse off len => decide (s.cfg.pbBytes < off.toNat + len.toNat)
  | .build off len => decide (s.cfg.pbBytes < off.toNat + len.toNat)
  | .ser off => s.sr.all fun r => decide (s.cfg.pbBytes < off.toNat + r.len.toNat)
  | .serc off => s.sr.all fun r => decide (s.cfg.pbBytes < off.toNat + r.len.toNat)
  | .describe off => s.sr.all fun r => decide (s.cfg.pbBytes < off.toNat + r.text.length)
  | .getflags | .gethlen | .getseq | .getack | .getlen | .gettype | .getretx => s.sr.isNone
  | .rdhext idx => s.sr.all fun r => decide (r.hlen.toNat - 6 ≤ idx.toNat)
  | .rdtpay idx => s.sr.all fun r => decide (r.len.toNat - r.hlen.toNat ≤ idx.toNat)
  | .setretx _ | .setack _ => s.sr.isNone
  | .variantSyn _ | .variantNul _ | .variantEak _ | .variantRst _ | .variantClz _ => false
  | .variantFin _ | .variantAck _ | .variantDat _ | .variantNone _ => false

end Sys2Proof.Machine
end

