-- ==== Sys2Proof/Certificates/Slice0/Obligations.lean ====
section
/-! DEFINITION. The statements for the provers. Each docstring cites the rules of spec/ it formalises. The fields `rsp`,
`served` and `host` of a state are the model's form of the response and of the host (log entries 3, 4, 5): the equations
on next states use them, and no statement rests on a value of `served`. -/

open Sys2Proof Sys2Proof.Machine

/-! ### Encodings -/

/-- Decode and encode agree: every well-formed instruction is read back from its encoding; whatever the decoder reads
is well-formed, a segment is its own encoding, and re-encoding a command word keeps its operation code
(30_encoding.md R45, R55, R60, R61). The segment form as an instruction is the model's choice (log entry 8). -/
def Obligations.DecodeAndEncodeAgree : Prop :=
  (∀ i : Instr, i.wf = true → decode (encode i) = .ok i) ∧
  (∀ (e : Encoded) (i : Instr), decode e = .ok i →
    i.wf = true ∧ (∀ img, e = .seg img → encode i = .seg img) ∧
      (∀ w : CmdWord, e = .cmd w → ∃ w', encode i = .cmd w' ∧ w'.extractLsb' 32 8 = w.extractLsb' 32 8))

/-- Words written out in the spec decode to what they stand for: the three assembled words of 30_encoding.md R65, the
word with unused bits of 95_test_vectors.md V57, and the wire bytes of 43_segment_variants.md R126 to R133. -/
def Obligations.WordsOfTheSpecDecode : Prop :=
  decode (.cmd 0x0200100006) = .ok (.parse 0x0010 6) ∧
  decode (.cmd 0x2000000003) = .ok (.setretx 3) ∧
  decode (.cmd 0x2100000021) = .ok (.setack 0x21) ∧
  decode (.cmd 0x18FFFF0000) = .ok (.rdtpay 0) ∧
  decode (.cmd 0x04FFFC0000) = .ok (.ser 0xFFFC) ∧
  decode (.cmd 0x1300000000) = .ok .getack ∧
  decode (.seg [0xC0, 0x0A, 0x10, 0x20, 0x01, 0x00, 0x04, 0x00, 0x2A, 0xD5]) =
    .ok (.variantSyn [0xC0, 0x0A, 0x10, 0x20, 0x01, 0x00, 0x04, 0x00, 0x2A, 0xD5]) ∧
  decode (.seg [0x40, 0x06, 0x05, 0x03, 0xBA, 0xF6]) = .ok (.variantAck [0x40, 0x06, 0x05, 0x03, 0xBA, 0xF6]) ∧
  decode (.seg [0x40, 0x06, 0x05, 0x03, 0xBA, 0xF6, 0x00]) =
    .ok (.variantDat [0x40, 0x06, 0x05, 0x03, 0xBA, 0xF6, 0x00])

/-- 30_encoding.md R61, with the fields of R60: the operation code alone selects the command; the operands are the
named bits, and every other bit of the word is ignored. -/
def Obligations.OperationCodeSelectsCommand : Prop :=
  ∀ w : CmdWord,
    let op : Byte := w.extractLsb' 32 8
    let a : Half := w.extractLsb' 16 16
    let b : Half := w.extractLsb' 0 16
    (op = 0x01 → decode (.cmd w) = .ok (.cksum a b)) ∧
    (op = 0x02 → decode (.cmd w) = .ok (.parse a b)) ∧
    (op = 0x03 → decode (.cmd w) = .ok (.build a b)) ∧
    (op = 0x04 → decode (.cmd w) = .ok (.ser a)) ∧
    (op = 0x05 → decode (.cmd w) = .ok (.serc a)) ∧
    (op = 0x06 → decode (.cmd w) = .ok (.describe a)) ∧
    (op = 0x10 → decode (.cmd w) = .ok .getflags) ∧
    (op = 0x11 → decode (.cmd w) = .ok .gethlen) ∧
    (op = 0x12 → decode (.cmd w) = .ok .getseq) ∧
    (op = 0x13 → decode (.cmd w) = .ok .getack) ∧
    (op = 0x14 → decode (.cmd w) = .ok .getlen) ∧
    (op = 0x15 → decode (.cmd w) = .ok .gettype) ∧
    (op = 0x16 → decode (.cmd w) = .ok .getretx) ∧
    (op = 0x17 → decode (.cmd w) = .ok (.rdhext b)) ∧
    (op = 0x18 → decode (.cmd w) = .ok (.rdtpay b)) ∧
    (op = 0x20 → decode (.cmd w) = .ok (.setretx (w.extractLsb' 0 32))) ∧
    (op = 0x21 → decode (.cmd w) = .ok (.setack (w.extractLsb' 0 8)))

/-- 30_encoding.md R62 and 60_exceptions.md R148: the reserved operation codes are exactly those listed, and a step
that takes such a word answers REFUSED and changes neither SR nor PB. -/
def Obligations.ReservedOperationIsRefused : Prop :=
  ∀ w : CmdWord,
    let op : Nat := (w.extractLsb' 32 8).toNat
    ((∀ i, decode (.cmd w) ≠ .ok i) ↔
      (op = 0x00 ∨ (0x07 ≤ op ∧ op ≤ 0x0F) ∨ (0x19 ≤ op ∧ op ≤ 0x1F) ∨ (0x22 ≤ op ∧ op ≤ 0xFF))) ∧
    ((op = 0x00 ∨ (0x07 ≤ op ∧ op ≤ 0x0F) ∨ (0x19 ≤ op ∧ op ≤ 0x1F) ∨ (0x22 ≤ op ∧ op ≤ 0xFF)) →
      ∀ (s : State) (rest : List HostAction), s.host = .present (.cmd w) :: rest →
        step s = .next { s with host := rest, rsp := some .refused, served := s.served + 1 })

/-- 30_encoding.md R55: the match/mask rows, each with its LEN condition, give the dispatcher's variant; exactly one of
them matches every flags byte; bit 2 (CHK) takes no part; the decoder's own table agrees. -/
def Obligations.VariantRowsPartitionTheFlagsByte : Prop :=
  ∀ (f : Byte) (len : Nat),
    (f &&& 0x80 = 0x80 → dispatch f len = some .syn) ∧
    (f &&& 0x88 = 0x08 → dispatch f len = some .nul) ∧
    (f &&& 0xA8 = 0x20 → dispatch f len = some .eak) ∧
    (f &&& 0xB8 = 0x10 → dispatch f len = some .rst) ∧
    (f &&& 0xB9 = 0x01 → dispatch f len = some .clz) ∧
    (f &&& 0xBB = 0x02 → dispatch f len = some .fin) ∧
    (f &&& 0xFB = 0x40 → len = 6 → dispatch f len = some .ack) ∧
    (f &&& 0xFB = 0x40 → len ≠ 6 → dispatch f len = some .dat) ∧
    (f &&& 0xFB = 0x00 → dispatch f len = none) ∧
    [decide (f &&& 0x80 = 0x80), decide (f &&& 0x88 = 0x08), decide (f &&& 0xA8 = 0x20), decide (f &&& 0xB8 = 0x10),
      decide (f &&& 0xB9 = 0x01), decide (f &&& 0xBB = 0x02), decide (f &&& 0xFB = 0x40),
      decide (f &&& 0xFB = 0x00)].count true = 1 ∧
    dispatch (f ^^^ 0x04) len = dispatch f len ∧
    selectRow f len = dispatch f len

/-- 42_type_dispatcher.md R111: the precedence list on the bits of the flags byte. -/
def Obligations.DispatchFollowsPrecedence : Prop :=
  ∀ (f : Byte) (len : Nat),
    dispatch f len =
      if f.getLsbD 7 then some .syn
      else if f.getLsbD 3 then some .nul
      else if f.getLsbD 5 then some .eak
      else if f.getLsbD 4 then some .rst
      else if f.getLsbD 0 then some .clz
      else if f.getLsbD 1 then some .fin
      else if f.getLsbD 6 then (if len = 6 then some .ack else some .dat)
      else none

/-- 42_type_dispatcher.md R112: what the shape test accepts. -/
def Obligations.ShapeTestByVariant : Prop :=
  ∀ (t : Variant) (hlen len : Nat),
    shapeOk t hlen len = true ↔
      6 ≤ hlen ∧ hlen ≤ len ∧
        ((t = .nul ∨ t = .rst ∨ t = .clz ∨ t = .fin ∨ t = .ack) → hlen = 6 ∧ len = 6)

/-- 30_encoding.md R57: the flags bytes 0x00 and 0x04, and no others, select no variant, and a segment with such a
flags byte is invalid whatever else it holds, for PARSE and for BUILD. -/
def Obligations.FlagsWithoutVariantAreInvalid : Prop :=
  (∀ (f : Byte) (len : Nat), dispatch f len = none ↔ (f = 0x00 ∨ f = 0x04)) ∧
  (∀ (s : State) (off len : Half), off.toNat + len.toNat ≤ s.cfg.pbBytes →
    (s.pb.read off.toNat = 0x00 ∨ s.pb.read off.toNat = 0x04) →
    exec (.parse off len) s = .next { s with sr := none, rsp := some .invalid, served := s.served + 1 } ∧
    exec (.build off len) s = .next { s with sr := none, rsp := some .invalid, served := s.served + 1 })

/-- 30_encoding.md R59: a segment of an illegal length is invalid, for PARSE and for BUILD. -/
def Obligations.IllegalLengthsAreInvalid : Prop :=
  ∀ (s : State) (off len : Half), off.toNat + len.toNat ≤ s.cfg.pbBytes →
    let f := s.pb.read off.toNat
    let h := (s.pb.read (off.toNat + 1)).toNat
    let n := len.toNat
    (n < 6 ∨ h < 6 ∨ n < h ∨
      ((dispatch f n = some .nul ∨ dispatch f n = some .rst ∨ dispatch f n = some .clz ∨ dispatch f n = some .fin ∨
        dispatch f n = some .ack) ∧ ¬ (h = 6 ∧ n = 6))) →
    exec (.parse off len) s = .next { s with sr := none, rsp := some .invalid, served := s.served + 1 } ∧
    exec (.build off len) s = .next { s with sr := none, rsp := some .invalid, served := s.served + 1 }

/-- 30_encoding.md R63 and R64: the 34-bit response word; an absent acknowledgment number is VAL[8] = 0 with the other
upper bits 0, and no claim is made on VAL where the spec leaves it unspecified. -/
def Obligations.ResponseWordLayout : Prop :=
  ∀ (k : Nat) (r : Response) (v : Word),
    (Response.ok v).word k = (0 : BitVec 2) ++ v ∧
    ((Response.okAbsent.word k).extractLsb' 32 2 = 0 ∧ (Response.okAbsent.word k).extractLsb' 8 24 = 0) ∧
    (Response.invalid.word k).extractLsb' 32 2 = 1 ∧
    (Response.refused.word k).extractLsb' 32 2 = 2 ∧
    (r.word k).extractLsb' 32 2 ≠ 3

/-! ### The checksum engine -/

/-- 40_checksum_engine.md R71 and 20_memory.md R34: the word sum pairs the bytes from the start of the range, big-endian,
and an odd last byte is a high-order byte; so does the sum of a range of PB, whatever the parity of its offset. -/
def Obligations.WordSumPairsFromTheStart : Prop :=
  (∀ b : List Byte,
    wsum b = ((List.range ((b.length + 1) / 2)).map fun i =>
      (b.getD (2 * i) 0).toNat * 256 + (b.getD (2 * i + 1) 0).toNat).sum) ∧
  (∀ (m : Memory) (off len : Nat),
    wsum (m.readRange off len) =
      ((List.range (len / 2)).map fun i =>
        (m.read (off + 2 * i)).toNat * 256 + (m.read (off + 2 * i + 1)).toNat).sum +
      (if len % 2 = 1 then (m.read (off + len - 1)).toNat * 256 else 0))

/-- 40_checksum_engine.md R72 and R73: the fold repeats until no carry remains; its closed form; the checksum is the
complement; when it is 0xFFFF and when 0x0000; the 16-bit end-around accumulator computes the same fold. -/
def Obligations.FoldIsEndAroundCarry : Prop :=
  (∀ s : Nat, fold s = if s ≤ 0xFFFF then s else fold ((s &&& 0xFFFF) + (s >>> 16))) ∧
  fold 0 = 0 ∧
  (∀ s : Nat, 0 < s → 1 ≤ fold s ∧ fold s ≤ 0xFFFF ∧ fold s % 0xFFFF = s % 0xFFFF) ∧
  (∀ s r : Nat, 0 < s → 1 ≤ r → r ≤ 0xFFFF → r % 0xFFFF = s % 0xFFFF → fold s = r) ∧
  (∀ b : List Byte, (cksum b).toNat = 0xFFFF - fold (wsum b)) ∧
  (∀ b : List Byte, cksum b = 0xFFFF ↔ ∀ x ∈ b, x = 0) ∧
  (∀ b : List Byte, cksum b = 0x0000 ↔ (0 < wsum b ∧ wsum b % 0xFFFF = 0)) ∧
  (∀ b : List Byte,
    ((List.range ((b.length + 1) / 2)).map fun i =>
      (b.getD (2 * i) 0).toNat * 256 + (b.getD (2 * i + 1) 0).toNat).foldl
        (fun acc w => if 0xFFFF < acc + w then ((acc + w) &&& 0xFFFF) + 1 else acc + w) 0 = fold (wsum b))

/-- 40_checksum_engine.md R75 (the bound on the sum and the two fold steps that suffice), and the example of R74 where
one step does not. -/
def Obligations.SumBoundAndTwoFolds : Prop :=
  (∀ b : List Byte, b.length ≤ 65535 →
    wsum b ≤ 0x7FFF8000 ∧
    (let one := fun s : Nat => (s &&& 0xFFFF) + (s >>> 16)
     one (wsum b) ≤ 0xFFFF + 0x7FFF ∧ fold (wsum b) = one (one (wsum b)))) ∧
  wsum [0xFF, 0xFF, 0xFF, 0xFF, 0x00, 0x01] = 0x1FFFF ∧
  (0x1FFFF &&& 0xFFFF) + (0x1FFFF >>> 16) = 0x10000 ∧
  (0x10000 &&& 0xFFFF) + (0x10000 >>> 16) = 0x0001 ∧
  cksum [0xFF, 0xFF, 0xFF, 0xFF, 0x00, 0x01] = 0xFFFE

/-- 40_checksum_engine.md R79: the command CKSUM. -/
def Obligations.CksumCommand : Prop :=
  (∀ w : CmdWord, w.extractLsb' 32 8 = 0x01 →
    decode (.cmd w) = .ok (.cksum (w.extractLsb' 16 16) (w.extractLsb' 0 16))) ∧
  (∀ (s : State) (off len : Half), s.cfg.pbBytes < off.toNat + len.toNat →
    exec (.cksum off len) s = .next { s with rsp := some .refused, served := s.served + 1 }) ∧
  (∀ (s : State) (off len : Half), off.toNat + len.toNat ≤ s.cfg.pbBytes →
    exec (.cksum off len) s = .next { s with
      rsp := some (.ok ((cksum (bytesOf len.toNat fun k => s.pb.read (off.toNat + k))).setWidth 32)),
      served := s.served + 1 }) ∧
  (∀ (s : State) (off : Half), off.toNat ≤ s.cfg.pbBytes →
    exec (.cksum off 0) s = .next { s with rsp := some (.ok 0xFFFF), served := s.served + 1 }) ∧
  (∀ (s : State) (off : Half), off.toNat + 1 ≤ s.cfg.pbBytes →
    exec (.cksum off 1) s = .next { s with
      rsp := some (.ok ((0xFFFF : Word) - ((s.pb.read off.toNat).setWidth 32 <<< 8))), served := s.served + 1 })

/-- 40_checksum_engine.md R80: for every image with an even `HLEN`, after inject the region validates. -/
def Obligations.InjectedChecksumValidates : Prop :=
  ∀ (img : List Byte) (flags : Byte) (hlen : Nat), 6 ≤ hlen → hlen ≤ img.length → hlen % 2 = 0 →
    cksum ((inject img flags hlen).take (if flags.getLsbD 2 then img.length else hlen)) = 0x0000

/-- 40_checksum_engine.md R81: with an odd `HLEN` the field enters the sum byte-swapped, and what inject writes validates
exactly when the two bytes of the checksum are equal. -/
def Obligations.OddHeaderLengthSwapsTheField : Prop :=
  (∀ (img : List Byte) (flags : Byte) (hlen : Nat), 6 ≤ hlen → hlen ≤ img.length → hlen % 2 = 1 →
    let region := if flags.getLsbD 2 then img.length else hlen
    let zeroed := (setCkField img hlen 0).take region
    (∀ c : Half, cksum ((setCkField img hlen c).take region) = 0x0000 ↔
      fold (wsum zeroed + ((c.toNat % 256) * 256 + c.toNat / 256)) = 0xFFFF) ∧
    (cksum ((inject img flags hlen).take region) = 0x0000 ↔
      (cksum zeroed).toNat / 256 = (cksum zeroed).toNat % 256)) ∧
  inject [0x60, 0x07, 0x11, 0x0F, 0x12, 0x00, 0x00] 0x60 7 = [0x60, 0x07, 0x11, 0x0F, 0x12, 0x7C, 0xE9] ∧
  cksum [0x60, 0x07, 0x11, 0x0F, 0x12, 0x7C, 0xE9] = 0x936C ∧
  cksum [0x60, 0x07, 0x11, 0x0F, 0x12, 0xE9, 0x7C] = 0x0000

/-- 40_checksum_engine.md R82: when the region with the field zeroed folds to 0xFFFF, inject writes 0x0000 and the field
values 0x0000 and 0xFFFF, and no others, validate; in every other case exactly one field value validates. -/
def Obligations.FieldValuesThatValidate : Prop :=
  (∀ (img : List Byte) (flags : Byte) (hlen : Nat), 6 ≤ hlen → hlen ≤ img.length →
    let region := if flags.getLsbD 2 then img.length else hlen
    let folded := fold (wsum ((setCkField img hlen 0).take region))
    (folded = 0xFFFF →
      inject img flags hlen = setCkField img hlen 0 ∧
      ∀ c : Half, cksum ((setCkField img hlen c).take region) = 0x0000 ↔ (c = 0x0000 ∨ c = 0xFFFF)) ∧
    (folded ≠ 0xFFFF →
      ∃ c : Half, cksum ((setCkField img hlen c).take region) = 0x0000 ∧
        ∀ c' : Half, cksum ((setCkField img hlen c').take region) = 0x0000 → c' = c)) ∧
  cksum [0x40, 0x06, 0xBF, 0xF9, 0x00, 0x00] = 0x0000 ∧
  cksum [0x40, 0x06, 0xBF, 0xF9, 0xFF, 0xFF] = 0x0000

/-- 40_checksum_engine.md R83: a change of one bit in the coverage region that leaves CHK and `HLEN` as they were keeps
the region, changes its word sum by a power of two up to 2^15, and makes a region that validated no longer validate. -/
def Obligations.SingleBitChangeIsDetected : Prop :=
  ∀ (img : List Byte) (i j : Nat),
    let region := fun b : List Byte => if (b.getD 0 0).getLsbD 2 then b.length else (b.getD 1 0).toNat
    let changed := img.set i (img.getD i 0 ^^^ (1#8 <<< j))
    region img ≤ img.length → i < region img → j < 8 → i ≠ 1 → ¬ (i = 0 ∧ j = 2) →
    region changed = region img ∧
    (∃ e, e ≤ 15 ∧
      (wsum (changed.take (region changed)) = wsum (img.take (region img)) + 2 ^ e ∨
        wsum (img.take (region img)) = wsum (changed.take (region changed)) + 2 ^ e)) ∧
    (cksum (img.take (region img)) = 0x0000 → cksum (changed.take (region changed)) ≠ 0x0000)

/-! ### PARSE and BUILD -/

/-- 42_type_dispatcher.md R113: PARSE, every outcome. -/
def Obligations.ParseCommand : Prop :=
  (∀ w : CmdWord, w.extractLsb' 32 8 = 0x02 →
    decode (.cmd w) = .ok (.parse (w.extractLsb' 16 16) (w.extractLsb' 0 16))) ∧
  ∀ (s : State) (off len : Half),
    let n := len.toNat
    let byte := fun k => s.pb.read (off.toNat + k)
    let h := (byte 1).toNat
    let invalid : State := { s with sr := none, rsp := some .invalid, served := s.served + 1 }
    (s.cfg.pbBytes < off.toNat + n →
      exec (.parse off len) s = .next { s with rsp := some .refused, served := s.served + 1 }) ∧
    (off.toNat + n ≤ s.cfg.pbBytes → n < 6 → exec (.parse off len) s = .next invalid) ∧
    (off.toNat + n ≤ s.cfg.pbBytes → 6 ≤ n → dispatch (byte 0) n = none →
      exec (.parse off len) s = .next invalid) ∧
    (∀ t, off.toNat + n ≤ s.cfg.pbBytes → 6 ≤ n → dispatch (byte 0) n = some t → shapeOk t h n = false →
      exec (.parse off len) s = .next invalid) ∧
    (∀ t, off.toNat + n ≤ s.cfg.pbBytes → 6 ≤ n → dispatch (byte 0) n = some t → shapeOk t h n = true →
      cksum (bytesOf (if (byte 0).getLsbD 2 then n else h) byte) ≠ 0x0000 →
      exec (.parse off len) s = .next invalid) ∧
    (∀ t, off.toNat + n ≤ s.cfg.pbBytes → 6 ≤ n → dispatch (byte 0) n = some t → shapeOk t h n = true →
      cksum (bytesOf (if (byte 0).getLsbD 2 then n else h) byte) = 0x0000 →
      exec (.parse off len) s = .next { s with
        sr := some (wireRecord t len byte), rsp := some (.ok (t.tag.setWidth 32)), served := s.served + 1 })

/-- 42_type_dispatcher.md R117: when PARSE, in range, succeeds. -/
def Obligations.ParseSucceedsExactlyWhen : Prop :=
  ∀ (s : State) (off len : Half), off.toNat + len.toNat ≤ s.cfg.pbBytes →
    let n := len.toNat
    let f := s.pb.read off.toNat
    let h := (s.pb.read (off.toNat + 1)).toNat
    (∃ t v, exec (.parse off len) s = .next t ∧ t.rsp = some (.ok v)) ↔
      (6 ≤ n ∧ f &&& 0xFB ≠ 0 ∧ (6 ≤ h ∧ h ≤ n) ∧
        (f &&& 0x80 ≠ 0 ∨ f &&& 0xA8 = 0x20 ∨ (f &&& 0xFB = 0x40 ∧ 6 < n) ∨ (h = 6 ∧ n = 6)) ∧
        fold (wsum (s.pb.readRange off.toNat (if f &&& 0x04 ≠ 0 then n else h))) = 0xFFFF)

/-- 42_type_dispatcher.md R116: PARSE always ends with OK, INVALID or REFUSED, and its outcome is a function of `off`,
`len` and the bytes of the range only; after INVALID nothing of the segment is in SR. -/
def Obligations.ParseDependsOnlyOnItsBytes : Prop :=
  ∀ (s₁ s₂ : State) (off len : Half), s₁.cfg = s₂.cfg →
    (∀ k, k < len.toNat → s₁.pb.read (off.toNat + k) = s₂.pb.read (off.toNat + k)) →
    ∃ t₁ t₂ r, exec (.parse off len) s₁ = .next t₁ ∧ exec (.parse off len) s₂ = .next t₂ ∧
      t₁.rsp = some r ∧ t₂.rsp = some r ∧
      (r ≠ .refused → t₁.sr = t₂.sr) ∧ (r = .invalid → t₁.sr = none)

/-- 41_segment_facade.md R86: BUILD, every outcome. -/
def Obligations.BuildCommand : Prop :=
  (∀ w : CmdWord, w.extractLsb' 32 8 = 0x03 →
    decode (.cmd w) = .ok (.build (w.extractLsb' 16 16) (w.extractLsb' 0 16))) ∧
  ∀ (s : State) (off len : Half),
    let n := len.toNat
    let byte := fun k => s.pb.read (off.toNat + k)
    let h := (byte 1).toNat
    let invalid : State := { s with sr := none, rsp := some .invalid, served := s.served + 1 }
    (s.cfg.pbBytes < off.toNat + n →
      exec (.build off len) s = .next { s with rsp := some .refused, served := s.served + 1 }) ∧
    (off.toNat + n ≤ s.cfg.pbBytes → n < 6 → exec (.build off len) s = .next invalid) ∧
    (off.toNat + n ≤ s.cfg.pbBytes → 6 ≤ n → dispatch (byte 0) n = none →
      exec (.build off len) s = .next invalid) ∧
    (∀ t, off.toNat + n ≤ s.cfg.pbBytes → 6 ≤ n → dispatch (byte 0) n = some t → shapeOk t h n = false →
      exec (.build off len) s = .next invalid) ∧
    (∀ t, off.toNat + n ≤ s.cfg.pbBytes → 6 ≤ n → dispatch (byte 0) n = some t → shapeOk t h n = true →
      exec (.build off len) s = .next { s with
        sr := some (wireRecord t len byte), rsp := some (.ok (t.tag.setWidth 32)), served := s.served + 1 })

/-- 41_segment_facade.md R86, 20_memory.md R35 (93 I20): the two checksum bytes of the image given to BUILD are ignored. -/
def Obligations.BuildIgnoresTheChecksumField : Prop :=
  ∀ (s : State) (m : Memory) (off len : Half),
    let h := (s.pb.read (off.toNat + 1)).toNat
    6 ≤ h →
    (∀ k, k < len.toNat → k ≠ h - 2 → k ≠ h - 1 → m.read (off.toNat + k) = s.pb.read (off.toNat + k)) →
    ∃ t t', exec (.build off len) s = .next t ∧ exec (.build off len) { s with pb := m } = .next t' ∧
      t'.sr = t.sr ∧ t'.rsp = t.rsp

/-- 70_reset_and_hazards.md R167: with CHK clear, the bytes from `HLEN` on can change and PARSE still succeeds. -/
def Obligations.ClearChkLeavesPayloadUnprotected : Prop :=
  ∀ (s t : State) (m : Memory) (off len : Half) (v : Word),
    exec (.parse off len) s = .next t → t.rsp = some (.ok v) →
    (s.pb.read off.toNat).getLsbD 2 = false →
    (∀ k, k < (s.pb.read (off.toNat + 1)).toNat → m.read (off.toNat + k) = s.pb.read (off.toNat + k)) →
    ∃ t', exec (.parse off len) { s with pb := m } = .next t' ∧ t'.rsp = some (.ok v)

/-! ### The variants (as presented segments: the model's form, log entry 8) -/

/-- 43_segment_variants.md R126 and R128: SYN and EAK are selected by their flags condition, need `6 <= HLEN <= LEN`, and
put the bytes between byte 3 and the checksum field into HEXT without looking at them. -/
def Obligations.SynAndEakVariants : Prop :=
  ∀ (s : State) (img : List Byte), 6 ≤ img.length → img.length ≤ 65535 →
    let byte := fun k => img.getD k 0
    let h := (byte 1).toNat
    let invalid : State := { s with sr := none, rsp := some .invalid, served := s.served + 1 }
    let sum := cksum (img.take (if (byte 0).getLsbD 2 then img.length else h))
    (byte 0 &&& 0x80 = 0x80 →
      decode (.seg img) = .ok (.variantSyn img) ∧
      (¬ (6 ≤ h ∧ h ≤ img.length) → exec (.variantSyn img) s = .next invalid) ∧
      (6 ≤ h → h ≤ img.length → sum ≠ 0 → exec (.variantSyn img) s = .next invalid) ∧
      (6 ≤ h → h ≤ img.length → sum = 0 → exec (.variantSyn img) s = .next { s with
        sr := some (wireRecord .syn (BitVec.ofNat 16 img.length) byte), rsp := some (.ok 0),
        served := s.served + 1 })) ∧
    (byte 0 &&& 0xA8 = 0x20 →
      decode (.seg img) = .ok (.variantEak img) ∧
      (¬ (6 ≤ h ∧ h ≤ img.length) → exec (.variantEak img) s = .next invalid) ∧
      (6 ≤ h → h ≤ img.length → sum ≠ 0 → exec (.variantEak img) s = .next invalid) ∧
      (6 ≤ h → h ≤ img.length → sum = 0 → exec (.variantEak img) s = .next { s with
        sr := some (wireRecord .eak (BitVec.ofNat 16 img.length) byte), rsp := some (.ok 2),
        served := s.served + 1 }))

/-- 43_segment_variants.md R127, R129, R130, R131: NUL, RST, CLZ and FIN are selected by their flags condition, must be
six bytes with `HLEN = 6`, and have an empty HEXT and an empty TPAY. -/
def Obligations.PayloadlessVariants : Prop :=
  ∀ (s : State) (img : List Byte), 6 ≤ img.length → img.length ≤ 65535 →
    let byte := fun k => img.getD k 0
    let h := (byte 1).toNat
    let invalid : State := { s with sr := none, rsp := some .invalid, served := s.served + 1 }
    let loaded := fun (t : Variant) (tag : Word) => ({ s with
      sr := some { flags := byte 0, hlen := byte 1, seq := byte 2,
                   ackn := if (byte 0).getLsbD 6 then some (byte 3) else none,
                   len := 6, type := t, hext := [], tpay := [], retx := 0 },
      rsp := some (.ok tag), served := s.served + 1 } : State)
    let good := h = 6 ∧ img.length = 6
    (byte 0 &&& 0x88 = 0x08 →
      decode (.seg img) = .ok (.variantNul img) ∧
      (¬ good → exec (.variantNul img) s = .next invalid) ∧
      (good → cksum img ≠ 0 → exec (.variantNul img) s = .next invalid) ∧
      (good → cksum img = 0 → exec (.variantNul img) s = .next (loaded .nul 1))) ∧
    (byte 0 &&& 0xB8 = 0x10 →
      decode (.seg img) = .ok (.variantRst img) ∧
      (¬ good → exec (.variantRst img) s = .next invalid) ∧
      (good → cksum img ≠ 0 → exec (.variantRst img) s = .next invalid) ∧
      (good → cksum img = 0 → exec (.variantRst img) s = .next (loaded .rst 3))) ∧
    (byte 0 &&& 0xB9 = 0x01 →
      decode (.seg img) = .ok (.variantClz img) ∧
      (¬ good → exec (.variantClz img) s = .next invalid) ∧
      (good → cksum img ≠ 0 → exec (.variantClz img) s = .next invalid) ∧
      (good → cksum img = 0 → exec (.variantClz img) s = .next (loaded .clz 4))) ∧
    (byte 0 &&& 0xBB = 0x02 →
      decode (.seg img) = .ok (.variantFin img) ∧
      (¬ good → exec (.variantFin img) s = .next invalid) ∧
      (good → cksum img ≠ 0 → exec (.variantFin img) s = .next invalid) ∧
      (good → cksum img = 0 → exec (.variantFin img) s = .next (loaded .fin 5)))

/-- 43_segment_variants.md R132 and R133: with the flags byte 0x40 or 0x44 a segment of six bytes is an ACK and a longer
one a DAT; both always have an acknowledgment number. -/
def Obligations.AckAndDatVariants : Prop :=
  ∀ (s : State) (img : List Byte), 6 ≤ img.length → img.length ≤ 65535 →
    (img.getD 0 0 = 0x40 ∨ img.getD 0 0 = 0x44) →
    let byte := fun k => img.getD k 0
    let h := (byte 1).toNat
    let invalid : State := { s with sr := none, rsp := some .invalid, served := s.served + 1 }
    let sum := cksum (img.take (if byte 0 = 0x44 then img.length else h))
    (img.length = 6 →
      decode (.seg img) = .ok (.variantAck img) ∧
      (h ≠ 6 → exec (.variantAck img) s = .next invalid) ∧
      (h = 6 → cksum img ≠ 0 → exec (.variantAck img) s = .next invalid) ∧
      (h = 6 → cksum img = 0 → exec (.variantAck img) s = .next { s with
        sr := some { flags := byte 0, hlen := 6, seq := byte 2, ackn := some (byte 3), len := 6, type := .ack,
                     hext := [], tpay := [], retx := 0 },
        rsp := some (.ok 6), served := s.served + 1 })) ∧
    (img.length ≠ 6 →
      decode (.seg img) = .ok (.variantDat img) ∧
      (¬ (6 ≤ h ∧ h ≤ img.length) → exec (.variantDat img) s = .next invalid) ∧
      (6 ≤ h → h ≤ img.length → sum ≠ 0 → exec (.variantDat img) s = .next invalid) ∧
      (6 ≤ h → h ≤ img.length → sum = 0 → ∃ r, r.ackn = some (byte 3) ∧
        r = wireRecord .dat (BitVec.ofNat 16 img.length) byte ∧
        exec (.variantDat img) s = .next { s with sr := some r, rsp := some (.ok 7), served := s.served + 1 }))

/-- The row without a variant, as a presented segment (the model's form, log entry 8): it is invalid whatever else it
holds (30_encoding.md R57). -/
def Obligations.PresentedSegmentWithoutVariant : Prop :=
  ∀ (s : State) (img : List Byte), 6 ≤ img.length → img.length ≤ 65535 →
    (img.getD 0 0 = 0x00 ∨ img.getD 0 0 = 0x04) →
    decode (.seg img) = .ok (.variantNone img) ∧
    exec (.variantNone img) s = .next { s with sr := none, rsp := some .invalid, served := s.served + 1 }

/-- 43_segment_variants.md R125: the decode of a variant is what PARSE does with a segment of that variant. PARSE of a
range of PB answers what the variant row's instruction answers on the bytes of the range. -/
def Obligations.ParseDelegatesToTheVariant : Prop :=
  ∀ (s : State) (off len : Half), off.toNat + len.toNat ≤ s.cfg.pbBytes →
    (∀ i, decode (.seg (s.pb.readRange off.toNat len.toNat)) = .ok i → exec (.parse off len) s = exec i s) ∧
    ((∀ i, decode (.seg (s.pb.readRange off.toNat len.toNat)) ≠ .ok i) →
      len.toNat < 6 ∧
      exec (.parse off len) s = .next { s with sr := none, rsp := some .invalid, served := s.served + 1 })

/-! ### Serialisation and description -/

/-- 41_segment_facade.md R87 and R88: SER writes the record's image, byte by byte, and nothing else; SR is unchanged; it is
REFUSED on an empty record and past the end of PB, and never INVALID. -/
def Obligations.SerWritesTheImage : Prop :=
  (∀ w : CmdWord, w.extractLsb' 32 8 = 0x04 → decode (.cmd w) = .ok (.ser (w.extractLsb' 16 16))) ∧
  ∀ (s : State) (off : Half),
    (s.sr = none → exec (.ser off) s = .next { s with rsp := some .refused, served := s.served + 1 }) ∧
    ∀ r, s.sr = some r →
      (s.cfg.pbBytes < off.toNat + r.len.toNat →
        exec (.ser off) s = .next { s with rsp := some .refused, served := s.served + 1 }) ∧
      (s.wf = true → off.toNat + r.len.toNat ≤ s.cfg.pbBytes →
        ∃ m, exec (.ser off) s = .next { s with
            pb := m, rsp := some (.ok (r.len.setWidth 32)), served := s.served + 1 } ∧
          (∀ k, k < r.len.toNat → m.read (off.toNat + k) = r.byteAt k) ∧
          (∀ a, a < off.toNat ∨ off.toNat + r.len.toNat ≤ a → m.read a = s.pb.read a))

/-- 41_segment_facade.md R90: SERC writes the image with the checksum, computed over the coverage region of the image
whose field is zero, in the field, and nothing else. -/
def Obligations.SercWritesImageAndChecksum : Prop :=
  (∀ w : CmdWord, w.extractLsb' 32 8 = 0x05 → decode (.cmd w) = .ok (.serc (w.extractLsb' 16 16))) ∧
  ∀ (s : State) (off : Half),
    (s.sr = none → exec (.serc off) s = .next { s with rsp := some .refused, served := s.served + 1 }) ∧
    ∀ r, s.sr = some r →
      (s.cfg.pbBytes < off.toNat + r.len.toNat →
        exec (.serc off) s = .next { s with rsp := some .refused, served := s.served + 1 }) ∧
      (s.wf = true → off.toNat + r.len.toNat ≤ s.cfg.pbBytes →
        let c := cksum (bytesOf (if r.flags.getLsbD 2 then r.len.toNat else r.hlen.toNat) r.byteAt)
        ∃ m, exec (.serc off) s = .next { s with
            pb := m, rsp := some (.ok (r.len.setWidth 32)), served := s.served + 1 } ∧
          (∀ k, k < r.len.toNat → m.read (off.toNat + k) =
            if k + 2 = r.hlen.toNat then c.extractLsb' 8 8
            else if k + 1 = r.hlen.toNat then c.extractLsb' 0 8 else r.byteAt k) ∧
          (∀ a, a < off.toNat ∨ off.toNat + r.len.toNat ≤ a → m.read a = s.pb.read a))

/-- The stores of SER, SERC and DESCRIBE in every state, the ones no run reaches among them: the bytes outside the
range are unchanged (20_memory.md R35). In the states that break 10_state.md R21 the stored length, `SR.LEN` bytes,
and the text rest on the fillers of log entry 13, the model's choice. -/
def Obligations.StoresStayInTheirRange : Prop :=
  ∀ (s : State) (off : Half) (r : Record), s.sr = some r →
    (off.toNat + r.len.toNat ≤ s.cfg.pbBytes →
      (∃ m, exec (.ser off) s = .next { s with
          pb := m, rsp := some (.ok (r.len.setWidth 32)), served := s.served + 1 } ∧
        ∀ a, a < off.toNat ∨ off.toNat + r.len.toNat ≤ a → m.read a = s.pb.read a) ∧
      (∃ m, exec (.serc off) s = .next { s with
          pb := m, rsp := some (.ok (r.len.setWidth 32)), served := s.served + 1 } ∧
        ∀ a, a < off.toNat ∨ off.toNat + r.len.toNat ≤ a → m.read a = s.pb.read a)) ∧
    (off.toNat + r.text.length ≤ s.cfg.pbBytes →
      ∃ m, exec (.describe off) s = .next { s with
          pb := m, rsp := some (.ok (BitVec.ofNat 32 r.text.length)), served := s.served + 1 } ∧
        ∀ a, a < off.toNat ∨ off.toNat + r.text.length ≤ a → m.read a = s.pb.read a)

/-- 41_segment_facade.md R103: DESCRIBE writes the text of the template, of 33 to 41 bytes, and nothing else. -/
def Obligations.DescribeWritesTheText : Prop :=
  (∀ w : CmdWord, w.extractLsb' 32 8 = 0x06 → decode (.cmd w) = .ok (.describe (w.extractLsb' 16 16))) ∧
  ∀ (s : State) (off : Half),
    (s.sr = none → exec (.describe off) s = .next { s with rsp := some .refused, served := s.served + 1 }) ∧
    ∀ r, s.sr = some r →
      let name : List Byte := match r.type with
        | .syn => [0x53, 0x59, 0x4E] | .nul => [0x4E, 0x55, 0x4C] | .eak => [0x45, 0x41, 0x4B]
        | .rst => [0x52, 0x53, 0x54] | .clz => [0x43, 0x4C, 0x5A] | .fin => [0x46, 0x49, 0x4E]
        | .ack => [0x41, 0x43, 0x4B] | .dat => [0x44, 0x41, 0x54]
      let number : List Byte := if r.flags.getLsbD 6 then dec (r.ackn.getD 0).toNat else [0x4E, 0x2F, 0x41]
      let txt : List Byte := name ++ [0x20, 0x5B, 0x20, 0x53, 0x45, 0x51, 0x20, 0x3D, 0x20] ++ dec r.seq.toNat
        ++ [0x2C, 0x20, 0x41, 0x43, 0x4B, 0x20, 0x3D, 0x20] ++ number
        ++ [0x2C, 0x20, 0x4C, 0x45, 0x4E, 0x20, 0x3D, 0x20] ++ dec r.len.toNat ++ [0x20, 0x5D]
      (33 ≤ txt.length ∧ txt.length ≤ 41) ∧
      (s.cfg.pbBytes < off.toNat + txt.length →
        exec (.describe off) s = .next { s with rsp := some .refused, served := s.served + 1 }) ∧
      (s.wf = true → off.toNat + txt.length ≤ s.cfg.pbBytes →
        ∃ m, exec (.describe off) s = .next { s with
            pb := m, rsp := some (.ok (BitVec.ofNat 32 txt.length)), served := s.served + 1 } ∧
          m.readRange off.toNat txt.length = txt ∧
          (∀ a, a < off.toNat ∨ off.toNat + txt.length ≤ a → m.read a = s.pb.read a))

/-- `dec` of 41_segment_facade.md R103: ASCII digits that spell the number, with no leading zero. -/
def Obligations.DecimalDigitsSpellTheNumber : Prop :=
  dec 0 = [0x30] ∧
  ∀ v : Nat,
    (∀ b ∈ dec v, 0x30 ≤ b.toNat ∧ b.toNat ≤ 0x39) ∧
    (dec v).foldl (fun a b => 10 * a + (b.toNat - 0x30)) 0 = v ∧
    (v ≠ 0 → (dec v).head? ≠ some 0x30)

/-- 41_segment_facade.md R91: SERC then PARSE gives back a record with an even `HLEN`, its counter 0; the converse is no
law, in the three ways the rule names. -/
def Obligations.ReserialisationLaw : Prop :=
  (∀ (s : State) (r : Record) (off : Half), s.wf = true → s.sr = some r → r.hlen.toNat % 2 = 0 →
    off.toNat + r.len.toNat ≤ s.cfg.pbBytes →
    ∃ t u, exec (.serc off) s = .next t ∧ exec (.parse off r.len) t = .next u ∧
      u.sr = some { r with retx := 0 } ∧ u.rsp = some (.ok (r.type.tag.setWidth 32))) ∧
  (let roundTrip := fun (img img' : List Byte) =>
    ∃ t u, exec (.parse 0 (BitVec.ofNat 16 img.length))
        (State.resetWith Config.standard (Memory.writeRange [] 0 img)) = .next t ∧
      exec (.serc 0) t = .next u ∧ u.pb.readRange 0 img.length = img'
   roundTrip [0x02, 0x06, 0xC8, 0x99, 0x35, 0x60] [0x02, 0x06, 0xC8, 0x00, 0x35, 0xF9] ∧
   roundTrip [0x40, 0x06, 0xBF, 0xF9, 0xFF, 0xFF] [0x40, 0x06, 0xBF, 0xF9, 0x00, 0x00] ∧
   roundTrip [0x60, 0x07, 0x11, 0x0F, 0x12, 0xE9, 0x7C] [0x60, 0x07, 0x11, 0x0F, 0x12, 0x7C, 0xE9])

/-- 41_segment_facade.md R88, corner case: "`BUILD off, VAL` after `SER off` rebuilds the same record except that
`SR.RETX` becomes 0", for every `HLEN`. -/
def Obligations.BuildAfterSerRebuilds : Prop :=
  ∀ (s : State) (r : Record) (off : Half), s.wf = true → s.sr = some r →
    off.toNat + r.len.toNat ≤ s.cfg.pbBytes →
    ∃ t u, exec (.ser off) s = .next t ∧ exec (.build off r.len) t = .next u ∧
      u.sr = some { r with retx := 0 } ∧ u.rsp = some (.ok (r.type.tag.setWidth 32))

/-! ### Accessors and setters -/

/-- 41_segment_facade.md R92, R93, R94, R96, R97, R98: the accessors answer the stored field and change nothing. -/
def Obligations.AccessorsAnswerTheStoredField : Prop :=
  ∀ (s : State) (r : Record), s.sr = some r →
    let answers := fun (v : Word) => ({ s with rsp := some (.ok v), served := s.served + 1 } : State)
    exec .getflags s = .next (answers (r.flags.setWidth 32)) ∧
    exec .gethlen s = .next (answers (r.hlen.setWidth 32)) ∧
    exec .getseq s = .next (answers (r.seq.setWidth 32)) ∧
    exec .getlen s = .next (answers (r.len.setWidth 32)) ∧
    exec .gettype s = .next (answers (r.type.tag.setWidth 32)) ∧
    exec .getretx s = .next (answers r.retx)

/-- 41_segment_facade.md R95: GETACK reports presence in VAL[8] and the number in VAL[7:0], or absence, which is an
answer and not an error; the status is OK either way and nothing changes. -/
def Obligations.GetackReportsPresence : Prop :=
  ∀ (s : State) (r : Record), s.sr = some r →
    (∀ a, r.flags.getLsbD 6 = true → r.ackn = some a →
      exec .getack s = .next { s with rsp := some (.ok (0x100 + a.setWidth 32)), served := s.served + 1 }) ∧
    (r.flags.getLsbD 6 = false →
      exec .getack s = .next { s with rsp := some .okAbsent, served := s.served + 1 } ∧
      ∀ k, (Response.okAbsent.word k).getLsbD 8 = false ∧ Response.okAbsent.status = .ok) ∧
    (s.wf = true → r.flags.getLsbD 6 = true → ∃ a, r.ackn = some a)

/-- 41_segment_facade.md R99 and R102, 60_exceptions.md R149: RDHEXT and RDTPAY answer the byte of their region at the
index, which is the wire byte the rule names, and are REFUSED past it and on an empty record. -/
def Obligations.RegionReadsAndTheirIndexCheck : Prop :=
  (∀ (s : State) (idx : Half), s.sr = none →
    exec (.rdhext idx) s = .next { s with rsp := some .refused, served := s.served + 1 } ∧
    exec (.rdtpay idx) s = .next { s with rsp := some .refused, served := s.served + 1 }) ∧
  ∀ (s : State) (r : Record) (idx : Half), s.sr = some r →
    let refused : State := { s with rsp := some .refused, served := s.served + 1 }
    (r.hlen.toNat - 6 ≤ idx.toNat → exec (.rdhext idx) s = .next refused) ∧
    (r.len.toNat - r.hlen.toNat ≤ idx.toNat → exec (.rdtpay idx) s = .next refused) ∧
    (∀ b, idx.toNat < r.hlen.toNat - 6 → r.hext[idx.toNat]? = some b →
      exec (.rdhext idx) s = .next { s with rsp := some (.ok (b.setWidth 32)), served := s.served + 1 }) ∧
    (∀ b, idx.toNat < r.len.toNat - r.hlen.toNat → r.tpay[idx.toNat]? = some b →
      exec (.rdtpay idx) s = .next { s with rsp := some (.ok (b.setWidth 32)), served := s.served + 1 }) ∧
    (s.wf = true → idx.toNat < r.hlen.toNat - 6 → r.hext[idx.toNat]? = some (r.byteAt (4 + idx.toNat))) ∧
    (s.wf = true → idx.toNat < r.len.toNat - r.hlen.toNat →
      r.tpay[idx.toNat]? = some (r.byteAt (r.hlen.toNat + idx.toNat)))

/-- 41_segment_facade.md R100: SETRETX writes the counter with any 32-bit value and nothing else, and the image and its
checksum do not depend on it. -/
def Obligations.SetretxWritesTheCounter : Prop :=
  (∀ w : CmdWord, w.extractLsb' 32 8 = 0x20 → decode (.cmd w) = .ok (.setretx (w.extractLsb' 0 32))) ∧
  (∀ (s : State) (n : Word), s.sr = none →
    exec (.setretx n) s = .next { s with rsp := some .refused, served := s.served + 1 }) ∧
  (∀ (s : State) (r : Record) (n : Word), s.sr = some r →
    exec (.setretx n) s = .next { s with
      sr := some { r with retx := n }, rsp := some (.ok 0), served := s.served + 1 }) ∧
  (∀ (r : Record) (n : Word), ({ r with retx := n } : Record).image = r.image ∧
    ({ r with retx := n } : Record).wire = r.wire)

/-- 41_segment_facade.md R101: SETACK sets bit 6 of the flags and stores the number; nothing else changes, and the type
stays the one the dispatcher gives. -/
def Obligations.SetackPiggybacksTheNumber : Prop :=
  (∀ w : CmdWord, w.extractLsb' 32 8 = 0x21 → decode (.cmd w) = .ok (.setack (w.extractLsb' 0 8))) ∧
  (∀ (s : State) (a : Byte), s.sr = none →
    exec (.setack a) s = .next { s with rsp := some .refused, served := s.served + 1 }) ∧
  (∀ (s : State) (r : Record) (a : Byte), s.sr = some r →
    exec (.setack a) s = .next { s with
      sr := some { r with flags := r.flags ||| 0x40, ackn := some a }, rsp := some (.ok 0),
      served := s.served + 1 }) ∧
  (∀ r : Record, r.wf = true → dispatch (r.flags ||| 0x40) r.len.toNat = some r.type)

/-! ### Failures -/

/-- 60_exceptions.md R147: the fourteen commands that read SR are REFUSED while SR is empty. -/
def Obligations.EmptyRecordIsRefused : Prop :=
  ∀ (s : State) (off idx : Half) (n : Word) (a : Byte), s.sr = none →
    ∀ i ∈ [Instr.ser off, .serc off, .describe off, .getflags, .gethlen, .getseq, .getack, .getlen, .gettype,
        .getretx, .rdhext idx, .rdtpay idx, .setretx n, .setack a],
      exec i s = .next { s with rsp := some .refused, served := s.served + 1 }

/-- 60_exceptions.md R146: a range past the end of PB is REFUSED, the sum being exact; a range that ends at the end of PB
is not. -/
def Obligations.RangePastTheEndIsRefused : Prop :=
  ∀ (s : State) (off len : Half),
    let refused : State := { s with rsp := some .refused, served := s.served + 1 }
    (s.cfg.pbBytes < off.toNat + len.toNat →
      exec (.cksum off len) s = .next refused ∧ exec (.parse off len) s = .next refused ∧
      exec (.build off len) s = .next refused) ∧
    (∀ r, s.sr = some r → s.cfg.pbBytes < off.toNat + r.len.toNat →
      exec (.ser off) s = .next refused ∧ exec (.serc off) s = .next refused) ∧
    (∀ r, s.sr = some r → s.cfg.pbBytes < off.toNat + r.text.length → exec (.describe off) s = .next refused) ∧
    (off.toNat + len.toNat = s.cfg.pbBytes →
      ∀ i ∈ [Instr.cksum off len, .parse off len, .build off len],
        ∃ t, exec i s = .next t ∧ t.rsp ≠ some .refused) ∧
    (∀ r, s.sr = some r → off.toNat + r.len.toNat = s.cfg.pbBytes →
      ∀ i ∈ [Instr.ser off, .serc off], ∃ t, exec i s = .next t ∧ t.rsp ≠ some .refused) ∧
    (∀ r, s.sr = some r → off.toNat + r.text.length = s.cfg.pbBytes →
      ∃ t, exec (.describe off) s = .next t ∧ t.rsp ≠ some .refused)

/-- 60_exceptions.md R145: a command is REFUSED exactly on a reserved operation or one of the conditions of R146, R147 and
R149, and then neither SR nor PB changes. -/
def Obligations.RefusedExactlyWhen : Prop :=
  ∀ (w : CmdWord) (s : State),
    let refused : State := { s with rsp := some .refused, served := s.served + 1 }
    ((∃ t, serve (.cmd w) s = .next t ∧ t.rsp = some .refused) ↔
      ((∀ i, decode (.cmd w) ≠ .ok i) ∨ ∃ i, decode (.cmd w) = .ok i ∧ refusedOn s i = true)) ∧
    (∀ t, serve (.cmd w) s = .next t → t.rsp = some .refused → t = refused)

/-- 60_exceptions.md R143 and R144: INVALID empties SR and changes nothing else of the block, and of all command words
only PARSE's and BUILD's can end INVALID. -/
def Obligations.InvalidEmptiesTheRecord : Prop :=
  (∀ (i : Instr) (s t : State), exec i s = .next t → t.rsp = some .invalid →
    t = { s with sr := none, rsp := some .invalid, served := s.served + 1 }) ∧
  (∀ (w : CmdWord) (s t : State), serve (.cmd w) s = .next t → t.rsp = some .invalid →
    w.extractLsb' 32 8 = 0x02 ∨ w.extractLsb' 32 8 = 0x03)

/-- 60_exceptions.md R140 and 10_state.md R24: every command word in every state ends in a next state with one response,
and leaves the parameters and the host's other actions alone; so does every well-formed variant row. -/
def Obligations.EveryCommandAnswers : Prop :=
  (∀ (w : CmdWord) (s : State), ∃ t r, serve (.cmd w) s = .next t ∧ t.rsp = some r ∧
    t.served = s.served + 1 ∧ t.cfg = s.cfg ∧ t.host = s.host) ∧
  (∀ (i : Instr) (s : State), i.wf = true → ∃ t r, exec i s = .next t ∧ t.rsp = some r ∧
    t.served = s.served + 1 ∧ t.cfg = s.cfg ∧ t.host = s.host)

/-- 10_state.md R12 (its last column), 20_memory.md R35: of all command words only PARSE, BUILD, SETRETX and SETACK write
SR and only SER, SERC and DESCRIBE write PB. -/
def Obligations.OnlyNamedCommandsWrite : Prop :=
  ∀ (w : CmdWord) (s t : State), serve (.cmd w) s = .next t →
    let op : Byte := w.extractLsb' 32 8
    (op ≠ 0x02 → op ≠ 0x03 → op ≠ 0x20 → op ≠ 0x21 → t.sr = s.sr) ∧
    (op ≠ 0x04 → op ≠ 0x05 → op ≠ 0x06 → t.pb = s.pb)

/-- 10_state.md R20: the retransmission counter is 0 after a successful PARSE or BUILD, the operand after SETRETX, and
otherwise what it was. -/
def Obligations.RetransmissionCounterRule : Prop :=
  ∀ (w : CmdWord) (s t : State) (v : Word) (r' : Record),
    serve (.cmd w) s = .next t → t.sr = some r' →
    let op : Byte := w.extractLsb' 32 8
    (t.rsp = some (.ok v) → op = 0x02 ∨ op = 0x03 → r'.retx = 0) ∧
    (t.rsp = some (.ok v) → op = 0x20 → r'.retx = w.extractLsb' 0 32) ∧
    ((t.rsp = some .refused ∨ (op ≠ 0x02 ∧ op ≠ 0x03 ∧ op ≠ 0x20)) → ∃ r, s.sr = some r ∧ r'.retx = r.retx)

/-- 10_state.md R21, line by line: what holds of the record after every instruction, if it held before. -/
def Obligations.RecordInvariantAfterEveryCommand : Prop :=
  let good := fun r : Record =>
    6 ≤ r.hlen.toNat ∧ r.hlen.toNat ≤ r.len.toNat ∧ r.len.toNat ≤ 65535 ∧
    r.hext.length = r.hlen.toNat - 6 ∧
    r.tpay.length = r.len.toNat - r.hlen.toNat ∧
    some r.type = dispatch r.flags r.len.toNat ∧
    shapeOk r.type r.hlen.toNat r.len.toNat = true ∧
    (r.ackn ≠ none ↔ r.flags.getLsbD 6 = true)
  ∀ (i : Instr) (s t : State), (∀ r, s.sr = some r → good r) → exec i s = .next t → ∀ r, t.sr = some r → good r

/-! ### The machine -/

/-- A step runs the decoded instruction: it takes the host's next action off the list and the last response away, runs
`exec` of what a presented form decodes to, answers REFUSED to a reserved word and INVALID to a segment shorter than
six bytes, stops on a segment longer than 65535 bytes, and idles when the host does nothing. The model's choices in it:
the list and the idle step (log entry 3), the presented segment (8), INVALID for a short one (16, DEDUCED), the fault
for a long one (12), and what `withFetchWord` presents (9 and 10). -/
def Obligations.StepRunsTheDecodedInstruction : Prop :=
  ∀ (s : State) (rest : List HostAction),
    let s' : State := { s with host := rest, rsp := none }
    (∀ e i, s.host = .present e :: rest → decode e = .ok i → step s = exec i s') ∧
    (∀ e op, s.host = .present e :: rest → decode e = .error (.reservedOp op) →
      step s = .next { s' with rsp := some .refused, served := s.served + 1 }) ∧
    (∀ e n, s.host = .present e :: rest → decode e = .error (.truncated n) →
      step s = .next { s' with sr := none, rsp := some .invalid, served := s.served + 1 }) ∧
    (∀ e n, s.host = .present e :: rest → decode e = .error (.tooLong n) → step s = .fault .segmentTooLong) ∧
    (s.host = [] → step s = .next { s with rsp := none }) ∧
    (∀ nbits w, step (s.withFetchWord nbits w) = serve (tableEncoded nbits w) { s with rsp := none })

/-- 20_memory.md R30 (the host's side): a host write changes the byte it names and nothing else of the block; at an
address that does not exist it faults (the model's choice, log entry 11). -/
def Obligations.HostWriteChangesOneByte : Prop :=
  ∀ (s : State) (a : Nat) (b : Byte) (rest : List HostAction), s.host = .pbWrite a b :: rest →
    (a < s.cfg.pbBytes → s.pb.wf = true →
      ∃ m, step s = .next { s with pb := m, host := rest, rsp := none } ∧
        ∀ x, m.read x = if x = a then b else s.pb.read x) ∧
    (s.cfg.pbBytes ≤ a → step s = .fault .hostOutsidePb)

/-- 20_memory.md R40 (a): a host write to PB before a command is seen by that command, here CKSUM of the one byte. -/
def Obligations.CommandSeesTheHostWriteBeforeIt : Prop :=
  ∀ (s : State) (a : Half) (b : Byte), a.toNat < s.cfg.pbBytes → s.pb.wf = true →
    ∃ t, Host.Core.run Sys2Proof.core 2
        { s with host := [.pbWrite a.toNat b, .present (encode (.cksum a 1))] } = .next t ∧
      t.rsp = some (.ok ((0xFFFF : Word) - (b.setWidth 32 <<< 8))) ∧ t.sr = s.sr

/-- 10_state.md R21, 20_memory.md R38, 00_scope.md R8: every step, from every state that meets them, keeps the invariants
of the record, the canonical form and bounds of PB, and the parameters. -/
def Obligations.StepKeepsTheInvariant : Prop :=
  ∀ s t : State, s.wf = true → step s = .next t → t.wf = true ∧ t.cfg = s.cfg

/-- 10_state.md R28 and 70_reset_and_hazards.md R161: after reset SR is empty, no field has a value, the port is idle and
there is no response, for every parameter and every content of PB; reset meets the invariant. -/
def Obligations.ResetState : Prop :=
  (∀ (c : Config) (m : Memory),
    let s := State.resetWith c m
    s.valid = false ∧ s.sr = none ∧ s.pb = m ∧ s.host = [] ∧ s.rsp = none ∧ s.cfg = c) ∧
  (∃ c m, State.reset = State.resetWith c m) ∧
  State.reset.wf = true

/-- 70_reset_and_hazards.md R162: directly after reset CKSUM, PARSE and BUILD work, whatever PB holds, and every command
of 60_exceptions.md R147 is REFUSED. -/
def Obligations.AfterReset : Prop :=
  ∀ (c : Config) (m : Memory) (w : CmdWord),
    let s := State.resetWith c m
    let op : Byte := w.extractLsb' 32 8
    (∀ off len : Half, off.toNat + len.toNat ≤ c.pbBytes →
      (∃ t, exec (.cksum off len) s = .next t ∧
        t.rsp = some (.ok ((cksum (m.readRange off.toNat len.toNat)).setWidth 32))) ∧
      (∃ t r, exec (.parse off len) s = .next t ∧ t.rsp = some r ∧ r ≠ .refused) ∧
      (∃ t r, exec (.build off len) s = .next t ∧ t.rsp = some r ∧ r ≠ .refused)) ∧
    (op ≠ 0x01 → op ≠ 0x02 → op ≠ 0x03 →
      serve (.cmd w) s = .next { s with rsp := some .refused, served := s.served + 1 })

/-- 60_exceptions.md R154 and 20_memory.md R44: a step of one instance leaves every other instance as it was, and what it
does depends on that instance alone. The list of instances and `stepAt` are the model's form (log entry 15, DEDUCED). -/
def Obligations.InstancesShareNothing : Prop :=
  ∀ (k : Nat) (sys sys' : List State),
    (stepAt k sys = .next sys' → sys'.length = sys.length ∧ ∀ j, j ≠ k → sys'[j]? = sys[j]?) ∧
    (∀ s, sys[k]? = some s →
      (∀ t, step s = .next t ↔ ∃ sys'', stepAt k sys = .next sys'' ∧ sys''[k]? = some t) ∧
      (∀ f, step s = .fault f ↔ stepAt k sys = .fault f) ∧
      (∀ f, step s = .refused f ↔ stepAt k sys = .refused f))
end

