-- ==== Sys2Proof/Laws/Checksum.lean ====
section
/-! SUPPORT. Small lemmas of the checksum engine's definitions. -/

namespace Sys2Proof.Machine

@[simp] theorem wsum_nil : wsum [] = 0 := rfl
@[simp] theorem wsum_single (b : Byte) : wsum [b] = b.toNat <<< 8 := rfl
@[simp] theorem wsum_cons_cons (hi lo : Byte) (bs : List Byte) : wsum (hi :: lo :: bs) = be16 hi lo + wsum bs := rfl

/-- `be16` as arithmetic. -/
theorem be16_eq (hi lo : Byte) : be16 hi lo = hi.toNat * 256 + lo.toNat := by
  have h : lo.toNat < 2 ^ 8 := lo.isLt
  rw [be16, ← Nat.shiftLeft_add_eq_or_of_lt h, Nat.shiftLeft_eq]

theorem be16_lt (hi lo : Byte) : be16 hi lo < 65536 := by
  rw [be16_eq]; have := hi.isLt; have := lo.isLt; omega

/-- The two bytes of a 16-bit value, put together again (20_memory.md R31). -/
theorem be16_hiByte_loByte (c : Half) : be16 (hiByte c) (loByte c) = c.toNat := by
  rw [be16_eq]; simp only [hiByte, loByte, BitVec.extractLsb'_toNat, Nat.shiftRight_eq_div_pow]
  have := c.isLt; omega

/-- One round of `fold` as arithmetic. -/
theorem foldRound_eq (s : Nat) : (s &&& 0xFFFF) + (s >>> 16) = s % 65536 + s / 65536 := by
  rw [Nat.shiftRight_eq_div_pow, show (0xFFFF : Nat) = 2 ^ 16 - 1 by norm_num, Nat.and_two_pow_sub_one_eq_mod]

/-- What the loop of `fold` leaves, when it may run as many rounds as its argument. -/
theorem foldLoop_spec (k s : Nat) (h : s ≤ k) :
    foldLoop k s ≤ 0xFFFF ∧ foldLoop k s % 0xFFFF = s % 0xFFFF ∧ (0 < s → 0 < foldLoop k s) ∧
      (s = 0 → foldLoop k s = 0) := by
  induction k generalizing s with
  | zero =>
    have : s = 0 := by omega
    subst this; simp [foldLoop]
  | succ k ih =>
    unfold foldLoop
    split
    · rw [foldRound_eq]
      obtain ⟨a, b, c, d⟩ := ih (s % 65536 + s / 65536) (by omega)
      refine ⟨a, ?_, fun _ => c (by omega), fun _ => by omega⟩
      rw [b]; omega
    · exact ⟨by omega, rfl, fun h => h, fun h => h⟩

/-- Everything `fold` does: 16 bits, the value modulo 0xFFFF, and zero only from zero. -/
theorem fold_spec (s : Nat) :
    fold s ≤ 0xFFFF ∧ fold s % 0xFFFF = s % 0xFFFF ∧ (0 < s → 0 < fold s) ∧ (s = 0 → fold s = 0) :=
  foldLoop_spec s s (Nat.le_refl s)

/-- The checksum as a number. -/
theorem cksum_toNat (b : List Byte) : (cksum b).toNat = 0xFFFF - fold (wsum b) := by
  have := (fold_spec (wsum b)).1
  simp only [cksum, BitVec.toNat_not, BitVec.toNat_ofNat]; omega

@[simp] theorem setCkField_length (img : List Byte) (hlen : Nat) (c : Half) :
    (setCkField img hlen c).length = img.length := by
  simp [setCkField]

@[simp] theorem inject_length (img : List Byte) (flags : Byte) (hlen : Nat) :
    (inject img flags hlen).length = img.length := by
  simp [inject]

/-- Bytes outside the checksum field are kept. -/
theorem setCkField_getElem?_ne (img : List Byte) (hlen k : Nat) (c : Half) (h1 : k ≠ hlen - 2) (h2 : k ≠ hlen - 1) :
    (setCkField img hlen c)[k]? = img[k]? := by
  simp [setCkField, Ne.symm h1, Ne.symm h2]

/-- The field's high byte is at `HLEN-2` (30_encoding.md R51). -/
theorem setCkField_getElem?_hi (img : List Byte) (hlen : Nat) (c : Half) (h : 2 ≤ hlen) (hl : hlen ≤ img.length) :
    (setCkField img hlen c)[hlen - 2]? = some (hiByte c) := by
  have h1 : hlen - 1 ≠ hlen - 2 := by omega
  have h2 : hlen - 2 < img.length := by omega
  simp [setCkField, h1, h2]

/-- The field's low byte is at `HLEN-1` (30_encoding.md R51). -/
theorem setCkField_getElem?_lo (img : List Byte) (hlen : Nat) (c : Half) (h : 2 ≤ hlen) (hl : hlen ≤ img.length) :
    (setCkField img hlen c)[hlen - 1]? = some (loByte c) := by
  have h2 : hlen - 1 < img.length := by omega
  simp [setCkField, h2]

end Sys2Proof.Machine
end

