-- ==== Sys2Proof/Laws/Decode.lean ====
section
/-! SUPPORT. Small lemmas of the encodings: a field of a command word that the encoder built is the field it was
built from, and what the decoder answers is well-formed. -/

namespace Sys2Proof

theorem cmdWord_toNat (op : Byte) (arg : Word) : (cmdWord op arg).toNat = op.toNat * 4294967296 + arg.toNat := by
  show (op ++ arg).toNat = _
  rw [BitVec.toNat_append, ← Nat.shiftLeft_add_eq_or_of_lt arg.isLt, Nat.shiftLeft_eq]

theorem argAB_toNat (a b : Half) : (argAB a b).toNat = a.toNat * 65536 + b.toNat := by
  show (a ++ b).toNat = _
  rw [BitVec.toNat_append, ← Nat.shiftLeft_add_eq_or_of_lt b.isLt, Nat.shiftLeft_eq]

@[simp] theorem cmdOp_cmdWord (op : Byte) (arg : Word) : cmdOp (cmdWord op arg) = op := by
  apply BitVec.eq_of_toNat_eq
  have := arg.isLt; have := op.isLt
  simp only [cmdOp, BitVec.extractLsb'_toNat, cmdWord_toNat, Nat.shiftRight_eq_div_pow]
  omega

@[simp] theorem cmdArg_cmdWord (op : Byte) (arg : Word) : cmdArg (cmdWord op arg) = arg := by
  apply BitVec.eq_of_toNat_eq
  have := arg.isLt
  simp only [cmdArg, BitVec.extractLsb'_toNat, cmdWord_toNat, Nat.shiftRight_eq_div_pow]
  omega

@[simp] theorem cmdA_cmdWord (op : Byte) (a b : Half) : cmdA (cmdWord op (argAB a b)) = a := by
  apply BitVec.eq_of_toNat_eq
  have := a.isLt; have := b.isLt
  simp only [cmdA, BitVec.extractLsb'_toNat, cmdWord_toNat, argAB_toNat, Nat.shiftRight_eq_div_pow]
  omega

@[simp] theorem cmdB_cmdWord (op : Byte) (a b : Half) : cmdB (cmdWord op (argAB a b)) = b := by
  apply BitVec.eq_of_toNat_eq
  have := b.isLt
  simp only [cmdB, BitVec.extractLsb'_toNat, cmdWord_toNat, argAB_toNat, Nat.shiftRight_eq_div_pow]
  omega

@[simp] theorem cmdAckn_cmdWord (op a : Byte) : cmdAckn (cmdWord op (a.setWidth 32)) = a := by
  apply BitVec.eq_of_toNat_eq
  have := a.isLt
  simp only [cmdAckn, BitVec.extractLsb'_toNat, cmdWord_toNat, BitVec.toNat_setWidth, Nat.shiftRight_eq_div_pow]
  omega

/-- What the decoder reads from a command word: the command of its operation code, or the code as reserved. -/
theorem decodeCmd_cases (w : CmdWord) :
    (cmdOp w = 0x01 ∧ decodeCmd w = .ok (.cksum (cmdA w) (cmdB w))) ∨
    (cmdOp w = 0x02 ∧ decodeCmd w = .ok (.parse (cmdA w) (cmdB w))) ∨
    (cmdOp w = 0x03 ∧ decodeCmd w = .ok (.build (cmdA w) (cmdB w))) ∨
    (cmdOp w = 0x04 ∧ decodeCmd w = .ok (.ser (cmdA w))) ∨
    (cmdOp w = 0x05 ∧ decodeCmd w = .ok (.serc (cmdA w))) ∨
    (cmdOp w = 0x06 ∧ decodeCmd w = .ok (.describe (cmdA w))) ∨
    (cmdOp w = 0x10 ∧ decodeCmd w = .ok (.getflags)) ∨
    (cmdOp w = 0x11 ∧ decodeCmd w = .ok (.gethlen)) ∨
    (cmdOp w = 0x12 ∧ decodeCmd w = .ok (.getseq)) ∨
    (cmdOp w = 0x13 ∧ decodeCmd w = .ok (.getack)) ∨
    (cmdOp w = 0x14 ∧ decodeCmd w = .ok (.getlen)) ∨
    (cmdOp w = 0x15 ∧ decodeCmd w = .ok (.gettype)) ∨
    (cmdOp w = 0x16 ∧ decodeCmd w = .ok (.getretx)) ∨
    (cmdOp w = 0x17 ∧ decodeCmd w = .ok (.rdhext (cmdB w))) ∨
    (cmdOp w = 0x18 ∧ decodeCmd w = .ok (.rdtpay (cmdB w))) ∨
    (cmdOp w = 0x20 ∧ decodeCmd w = .ok (.setretx (cmdArg w))) ∨
    (cmdOp w = 0x21 ∧ decodeCmd w = .ok (.setack (cmdAckn w))) ∨
    ((cmdOp w ∉ [0x01, 0x02, 0x03, 0x04, 0x05, 0x06, 0x10, 0x11, 0x12, 0x13, 0x14, 0x15, 0x16, 0x17, 0x18, 0x20, 0x21]) ∧
      decodeCmd w = .error (.reservedOp (cmdOp w))) := by
  unfold decodeCmd
  generalize cmdOp w = op
  by_cases h0 : op = 0x01#8
  · subst h0; simp
  by_cases h1 : op = 0x02#8
  · subst h1; simp
  by_cases h2 : op = 0x03#8
  · subst h2; simp
  by_cases h3 : op = 0x04#8
  · subst h3; simp
  by_cases h4 : op = 0x05#8
  · subst h4; simp
  by_cases h5 : op = 0x06#8
  · subst h5; simp
  by_cases h6 : op = 0x10#8
  · subst h6; simp
  by_cases h7 : op = 0x11#8
  · subst h7; simp
  by_cases h8 : op = 0x12#8
  · subst h8; simp
  by_cases h9 : op = 0x13#8
  · subst h9; simp
  by_cases h10 : op = 0x14#8
  · subst h10; simp
  by_cases h11 : op = 0x15#8
  · subst h11; simp
  by_cases h12 : op = 0x16#8
  · subst h12; simp
  by_cases h13 : op = 0x17#8
  · subst h13; simp
  by_cases h14 : op = 0x18#8
  · subst h14; simp
  by_cases h15 : op = 0x20#8
  · subst h15; simp
  by_cases h16 : op = 0x21#8
  · subst h16; simp
  simp [h0, h1, h2, h3, h4, h5, h6, h7, h8, h9, h10, h11, h12, h13, h14, h15, h16]

/-- What it means that a row selects an image. -/
theorem imgSelects_iff (v : Option Variant) (img : List Byte) :
    imgSelects v img = true ↔
      (minHdr ≤ img.length ∧ img.length ≤ 65535) ∧ selectRow (img.getD 0 0) img.length = v := by
  simp [imgSelects, imgLenOk]

/-- A segment that a row selects decodes to that row's instruction. -/
theorem decodeSeg_of_selects {v : Option Variant} {img : List Byte} (h : imgSelects v img = true) :
    decodeSeg img = .ok (variantInstr v img) := by
  rw [imgSelects_iff] at h
  obtain ⟨⟨h1, h2⟩, h3⟩ := h
  rw [decodeSeg, if_neg (by omega), if_neg (by omega), h3]

/-- The instruction of a row is well-formed exactly when the row selects the image. -/
theorem variantInstr_wf (v : Option Variant) (img : List Byte) : (variantInstr v img).wf = imgSelects v img := by
  rcases v with _ | v
  · rfl
  · cases v <;> rfl

@[simp] theorem encode_variantInstr (v : Option Variant) (img : List Byte) :
    encode (variantInstr v img) = .seg img := by
  rcases v with _ | v
  · rfl
  · cases v <;> rfl

end Sys2Proof
end

