-- ==== Sys2Proof/Laws/Memory.lean ====
section
/-! SUPPORT. The laws of PB: what a read sees after a write, and that every write keeps the canonical form and the
bounds of the address space. -/

namespace Sys2Proof.Machine

@[simp] theorem Memory.read_nil (a : Nat) : Memory.read [] a = Memory.unlisted := rfl

theorem Memory.read_cons (k : Nat) (b : Byte) (m : Memory) (a : Nat) :
    Memory.read ((k, b) :: m) a = if k = a then b else Memory.read m a := rfl

@[simp] theorem Memory.wfFrom_nil (lo : Nat) : Memory.wfFrom lo [] = true := rfl

theorem Memory.wfFrom_cons (lo k : Nat) (b : Byte) (m : Memory) :
    Memory.wfFrom lo ((k, b) :: m) = true ↔ lo ≤ k ∧ b ≠ Memory.unlisted ∧ Memory.wfFrom (k + 1) m = true := by
  simp [Memory.wfFrom, and_assoc]

theorem Memory.wfFrom_anti {lo lo' : Nat} {m : Memory} (h : Memory.wfFrom lo m = true) (hle : lo' ≤ lo) :
    Memory.wfFrom lo' m = true := by
  cases m with
  | nil => rfl
  | cons c m =>
    obtain ⟨k, b⟩ := c
    rw [Memory.wfFrom_cons] at *
    exact ⟨by omega, h.2⟩

theorem Memory.read_below {lo a : Nat} {m : Memory} (h : Memory.wfFrom lo m = true) (ha : a < lo) :
    m.read a = Memory.unlisted := by
  induction m generalizing lo with
  | nil => rfl
  | cons c m ih =>
    obtain ⟨k, b⟩ := c
    rw [Memory.wfFrom_cons] at h
    rw [Memory.read_cons, if_neg (by omega), ih h.2.2 (by omega)]

/-- A write leaves every other address as it was, in every memory. -/
theorem Memory.read_write_ne (m : Memory) {a x : Nat} (b : Byte) (h : x ≠ a) : (m.write a b).read x = m.read x := by
  induction m with
  | nil =>
    simp only [Memory.write]; split
    · rfl
    · simp [Memory.read_cons, Ne.symm h]
  | cons c m ih =>
    obtain ⟨k, c⟩ := c
    have hax : a ≠ x := Ne.symm h
    simp only [Memory.write]
    split
    · split
      · rfl
      · simp [Memory.read_cons, hax]
    · split
      · subst a
        split <;> simp [Memory.read_cons, hax]
      · simp [Memory.read_cons, ih]

/-- A read of the written address gives the written byte, in a memory in canonical form. -/
theorem Memory.read_write_self {lo : Nat} {m : Memory} (h : m.wfFrom lo = true) (a : Nat) (b : Byte) :
    (m.write a b).read a = b := by
  induction m generalizing lo with
  | nil =>
    simp only [Memory.write]; split
    · simp_all
    · simp [Memory.read_cons]
  | cons c m ih =>
    obtain ⟨k, c⟩ := c
    have hw := h
    rw [Memory.wfFrom_cons] at h
    simp only [Memory.write]
    split
    · rename_i hlt
      split
      · rename_i hb
        rw [hb, Memory.read_cons, if_neg (by omega)]
        exact Memory.read_below h.2.2 (by omega)
      · simp [Memory.read_cons]
    · split
      · subst a
        split
        · rename_i hb
          rw [hb]; exact Memory.read_below h.2.2 (by omega)
        · simp [Memory.read_cons]
      · rw [Memory.read_cons, if_neg (by omega), ih h.2.2]

theorem Memory.wfFrom_write {lo a : Nat} {m : Memory} (b : Byte) (h : m.wfFrom lo = true) (ha : lo ≤ a) :
    (m.write a b).wfFrom lo = true := by
  induction m generalizing lo with
  | nil =>
    simp only [Memory.write]; split
    · rfl
    · rw [Memory.wfFrom_cons]; exact ⟨ha, ‹_›, rfl⟩
  | cons c m ih =>
    obtain ⟨k, c⟩ := c
    have hw := h
    rw [Memory.wfFrom_cons] at h
    obtain ⟨hk, hc, hm⟩ := h
    simp only [Memory.write]
    split
    · split
      · exact hw
      · rw [Memory.wfFrom_cons, Memory.wfFrom_cons]; exact ⟨ha, ‹_›, by omega, hc, hm⟩
    · split
      · subst a
        split
        · exact Memory.wfFrom_anti hm (by omega)
        · rw [Memory.wfFrom_cons]; exact ⟨ha, ‹_›, hm⟩
      · rw [Memory.wfFrom_cons]; exact ⟨hk, hc, ih hm (by omega)⟩

/-- A write keeps the canonical form. -/
theorem Memory.wf_write {m : Memory} (a : Nat) (b : Byte) (h : m.wf = true) : (m.write a b).wf = true :=
  Memory.wfFrom_write b h (Nat.zero_le a)

/-- A read of the written address, in a memory in canonical form. -/
theorem Memory.read_write {m : Memory} (h : m.wf = true) (a x : Nat) (b : Byte) :
    (m.write a b).read x = if x = a then b else m.read x := by
  split
  · subst x; exact Memory.read_write_self h a b
  · exact Memory.read_write_ne m b ‹_›

@[simp] theorem Memory.below_nil (n : Nat) : Memory.below n [] = true := rfl

theorem Memory.below_cons (n k : Nat) (b : Byte) (m : Memory) :
    Memory.below n ((k, b) :: m) = true ↔ k < n ∧ Memory.below n m = true := by
  simp [Memory.below]

theorem Memory.below_write {m : Memory} {n a : Nat} (b : Byte) (h : m.below n = true) (ha : a < n) :
    (m.write a b).below n = true := by
  induction m with
  | nil =>
    simp only [Memory.write]; split
    · rfl
    · rw [Memory.below_cons]; exact ⟨ha, rfl⟩
  | cons c m ih =>
    obtain ⟨k, c⟩ := c
    have h' := (Memory.below_cons n k c m).1 h
    simp only [Memory.write]
    split
    · split
      · exact h
      · exact (Memory.below_cons ..).2 ⟨ha, h⟩
    · split
      · split
        · exact h'.2
        · exact (Memory.below_cons ..).2 ⟨ha, h'.2⟩
      · exact (Memory.below_cons ..).2 ⟨h'.1, ih h'.2⟩

/-- Storing a run of bytes keeps the canonical form. -/
theorem Memory.wf_writeRange {m : Memory} (a : Nat) (bs : List Byte) (h : m.wf = true) :
    (m.writeRange a bs).wf = true := by
  induction bs generalizing m a with
  | nil => exact h
  | cons b bs ih => exact ih (a + 1) (Memory.wf_write a b h)

/-- Storing a run of bytes that ends below `n` lists no address from `n` on. -/
theorem Memory.below_writeRange {m : Memory} {n : Nat} (a : Nat) (bs : List Byte) (h : m.below n = true)
    (hn : a + bs.length ≤ n) : (m.writeRange a bs).below n = true := by
  induction bs generalizing m a with
  | nil => exact h
  | cons b bs ih =>
    simp only [List.length_cons] at hn
    exact ih (a + 1) (Memory.below_write b h (by omega)) (by omega)

/-- Storing a run of bytes leaves every address outside it as it was, in every memory. -/
theorem Memory.read_writeRange_outside (m : Memory) (a x : Nat) (bs : List Byte) (h : x < a ∨ a + bs.length ≤ x) :
    (m.writeRange a bs).read x = m.read x := by
  induction bs generalizing m a with
  | nil => rfl
  | cons b bs ih =>
    simp only [List.length_cons] at h
    rw [Memory.writeRange, ih _ _ (by omega), Memory.read_write_ne m b (by omega)]

/-- Inside a stored run a read gives the stored byte, in a memory in canonical form. -/
theorem Memory.read_writeRange_inside {m : Memory} (hm : m.wf = true) (a k : Nat) (bs : List Byte)
    (h : k < bs.length) : (m.writeRange a bs).read (a + k) = bs[k] := by
  induction bs generalizing m a k with
  | nil => simp at h
  | cons b bs ih =>
    rw [Memory.writeRange]
    cases k with
    | zero =>
      rw [Memory.read_writeRange_outside _ _ _ _ (by omega), Nat.add_zero, Memory.read_write_self hm]; rfl
    | succ k =>
      have := ih (Memory.wf_write a b hm) (a + 1) k (by simpa using h)
      rw [show a + (k + 1) = a + 1 + k by omega, this]; rfl

@[simp] theorem Memory.readRange_length (m : Memory) (a n : Nat) : (m.readRange a n).length = n := by
  induction n generalizing a with
  | zero => rfl
  | succ n ih => simp [Memory.readRange, ih]

/-- The bytes of a range, one by one. -/
theorem Memory.readRange_getElem (m : Memory) (a n k : Nat) (h : k < (m.readRange a n).length) :
    (m.readRange a n)[k] = m.read (a + k) := by
  induction n generalizing a k with
  | zero => simp at h
  | succ n ih =>
    cases k with
    | zero => rfl
    | succ k =>
      simp only [Memory.readRange, List.getElem_cons_succ]
      rw [ih]; congr 1; omega

/-- A byte of a range, by index. -/
theorem Memory.readRange_getD (m : Memory) (a n k : Nat) (h : k < n) :
    (m.readRange a n).getD k 0 = m.read (a + k) := by
  rw [List.getD_eq_getElem _ _ (by simpa using h), Memory.readRange_getElem]

/-- Reading back a stored run gives it, in a memory in canonical form. -/
theorem Memory.readRange_writeRange {m : Memory} (hm : m.wf = true) (a : Nat) (bs : List Byte) :
    (m.writeRange a bs).readRange a bs.length = bs := by
  apply List.ext_getElem (by simp)
  intro k h1 h2
  rw [Memory.readRange_getElem, Memory.read_writeRange_inside hm a k bs h2]

/-- Two memories that agree on a range give the same bytes for it. -/
theorem Memory.readRange_congr {m m' : Memory} {a n : Nat} (h : ∀ x, a ≤ x → x < a + n → m.read x = m'.read x) :
    m.readRange a n = m'.readRange a n := by
  apply List.ext_getElem (by simp)
  intro k h1 h2
  have hk : k < n := by simpa using h1
  rw [Memory.readRange_getElem, Memory.readRange_getElem, h _ (by omega) (by omega)]

/-- The buffer of the reset state is in canonical form. -/
theorem State.reset_pb_wf : State.reset.pb.wf = true := rfl

end Sys2Proof.Machine
end

