-- ==== Sys2Proof/Laws/State.lean ====
section
/-! SUPPORT. One lemma per field of State per update, true by rfl, so that no later proof unfolds a record update. -/

namespace Sys2Proof.Machine

@[simp] theorem State.respond_cfg (s : State) (r : Response) : (s.respond r).cfg = s.cfg := rfl
@[simp] theorem State.respond_sr (s : State) (r : Response) : (s.respond r).sr = s.sr := rfl
@[simp] theorem State.respond_pb (s : State) (r : Response) : (s.respond r).pb = s.pb := rfl
@[simp] theorem State.respond_host (s : State) (r : Response) : (s.respond r).host = s.host := rfl
@[simp] theorem State.respond_rsp (s : State) (r : Response) : (s.respond r).rsp = some r := rfl
@[simp] theorem State.respond_served (s : State) (r : Response) : (s.respond r).served = s.served + 1 := rfl

@[simp] theorem State.clearSr_cfg (s : State) : s.clearSr.cfg = s.cfg := rfl
@[simp] theorem State.clearSr_sr (s : State) : s.clearSr.sr = none := rfl
@[simp] theorem State.clearSr_pb (s : State) : s.clearSr.pb = s.pb := rfl
@[simp] theorem State.clearSr_host (s : State) : s.clearSr.host = s.host := rfl
@[simp] theorem State.clearSr_rsp (s : State) : s.clearSr.rsp = s.rsp := rfl
@[simp] theorem State.clearSr_served (s : State) : s.clearSr.served = s.served := rfl

@[simp] theorem State.load_cfg (s : State) (r : Record) : (s.load r).cfg = s.cfg := rfl
@[simp] theorem State.load_sr (s : State) (r : Record) : (s.load r).sr = some r := rfl
@[simp] theorem State.load_pb (s : State) (r : Record) : (s.load r).pb = s.pb := rfl
@[simp] theorem State.load_host (s : State) (r : Record) : (s.load r).host = s.host := rfl
@[simp] theorem State.load_rsp (s : State) (r : Record) : (s.load r).rsp = s.rsp := rfl
@[simp] theorem State.load_served (s : State) (r : Record) : (s.load r).served = s.served := rfl

@[simp] theorem State.store_cfg (s : State) (a : Nat) (bs : List Byte) : (s.store a bs).cfg = s.cfg := rfl
@[simp] theorem State.store_sr (s : State) (a : Nat) (bs : List Byte) : (s.store a bs).sr = s.sr := rfl
@[simp] theorem State.store_pb (s : State) (a : Nat) (bs : List Byte) : (s.store a bs).pb = s.pb.writeRange a bs := rfl
@[simp] theorem State.store_host (s : State) (a : Nat) (bs : List Byte) : (s.store a bs).host = s.host := rfl
@[simp] theorem State.store_rsp (s : State) (a : Nat) (bs : List Byte) : (s.store a bs).rsp = s.rsp := rfl
@[simp] theorem State.store_served (s : State) (a : Nat) (bs : List Byte) : (s.store a bs).served = s.served := rfl

@[simp] theorem State.taking_cfg (s : State) (rest : List HostAction) : (s.taking rest).cfg = s.cfg := rfl
@[simp] theorem State.taking_sr (s : State) (rest : List HostAction) : (s.taking rest).sr = s.sr := rfl
@[simp] theorem State.taking_pb (s : State) (rest : List HostAction) : (s.taking rest).pb = s.pb := rfl
@[simp] theorem State.taking_host (s : State) (rest : List HostAction) : (s.taking rest).host = rest := rfl
@[simp] theorem State.taking_rsp (s : State) (rest : List HostAction) : (s.taking rest).rsp = none := rfl
@[simp] theorem State.taking_served (s : State) (rest : List HostAction) : (s.taking rest).served = s.served := rfl

@[simp] theorem State.offer_cfg (s : State) (e : Encoded) : (s.offer e).cfg = s.cfg := rfl
@[simp] theorem State.offer_sr (s : State) (e : Encoded) : (s.offer e).sr = s.sr := rfl
@[simp] theorem State.offer_pb (s : State) (e : Encoded) : (s.offer e).pb = s.pb := rfl
@[simp] theorem State.offer_host (s : State) (e : Encoded) : (s.offer e).host = .present e :: s.host := rfl
@[simp] theorem State.offer_rsp (s : State) (e : Encoded) : (s.offer e).rsp = s.rsp := rfl
@[simp] theorem State.offer_served (s : State) (e : Encoded) : (s.offer e).served = s.served := rfl

@[simp] theorem State.resetWith_cfg (c : Config) (m : Memory) : (State.resetWith c m).cfg = c := rfl
@[simp] theorem State.resetWith_sr (c : Config) (m : Memory) : (State.resetWith c m).sr = none := rfl
@[simp] theorem State.resetWith_pb (c : Config) (m : Memory) : (State.resetWith c m).pb = m := rfl
@[simp] theorem State.resetWith_host (c : Config) (m : Memory) : (State.resetWith c m).host = [] := rfl
@[simp] theorem State.resetWith_rsp (c : Config) (m : Memory) : (State.resetWith c m).rsp = none := rfl
@[simp] theorem State.resetWith_served (c : Config) (m : Memory) : (State.resetWith c m).served = 0 := rfl

@[simp] theorem State.reset_cfg : State.reset.cfg = Config.standard := rfl
@[simp] theorem State.reset_sr : State.reset.sr = none := rfl
@[simp] theorem State.reset_pb : State.reset.pb = [] := rfl
@[simp] theorem State.reset_host : State.reset.host = [] := rfl
@[simp] theorem State.reset_rsp : State.reset.rsp = none := rfl
@[simp] theorem State.reset_served : State.reset.served = 0 := rfl

end Sys2Proof.Machine
end

