-- ==== Sys2Proof/Laws/Operations.lean ====
section
/-! SUPPORT. Each shared operation, said once: what it answers, in every case. -/

namespace Sys2Proof.Machine

theorem inPb_iff (s : State) (off n : Nat) : inPb s off n = true ↔ off + n ≤ s.cfg.pbBytes := by
  simp [inPb]

theorem withRange_in {s : State} {off n : Nat} (h : off + n ≤ s.cfg.pbBytes) (body : Result) :
    withRange s off n body = body := by
  simp [withRange, inPb, h]

theorem withRange_out {s : State} {off n : Nat} (h : s.cfg.pbBytes < off + n) (body : Result) :
    withRange s off n body = answerRefused s := by
  simp [withRange, inPb, h]

theorem withRecord_some {s : State} {r : Record} (h : s.sr = some r) (body : Record → Result) :
    withRecord s body = body r := by
  simp [withRecord, h]

theorem withRecord_none {s : State} (h : s.sr = none) (body : Record → Result) :
    withRecord s body = answerRefused s := by
  simp [withRecord, h]

/-- A range-checked command answers REFUSED, or what its body answers. -/
theorem withRange_cases (s : State) (off n : Nat) (body : Result) :
    (s.cfg.pbBytes < off + n ∧ withRange s off n body = answerRefused s) ∨
      (off + n ≤ s.cfg.pbBytes ∧ withRange s off n body = body) := by
  rcases Nat.lt_or_ge s.cfg.pbBytes (off + n) with h | h
  · exact .inl ⟨h, withRange_out h body⟩
  · exact .inr ⟨h, withRange_in h body⟩

/-- A command that reads SR answers REFUSED when SR is empty, or what its body answers on the record. -/
theorem withRecord_cases (s : State) (body : Record → Result) :
    (s.sr = none ∧ withRecord s body = answerRefused s) ∨
      (∃ r, s.sr = some r ∧ withRecord s body = body r) := by
  cases h : s.sr with
  | none => exact .inl ⟨rfl, withRecord_none h body⟩
  | some r => exact .inr ⟨r, rfl, withRecord_some h body⟩

/-- An indexed read answers the byte, or REFUSED past the region. -/
theorem readRegion_cases (s : State) (region : List Byte) (n idx : Nat) :
    (idx < n ∧ readRegion s region n idx = answerOk s ((region.getD idx 0).setWidth 32)) ∨
      (n ≤ idx ∧ readRegion s region n idx = answerRefused s) := by
  rcases Nat.lt_or_ge idx n with h | h
  · exact .inl ⟨h, by simp [readRegion, h]⟩
  · exact .inr ⟨h, by simp [readRegion, Nat.not_lt.2 h]⟩

/-- The shared decode, after the variant is known: INVALID when the shape or (if it is tested) the checksum is wrong,
else the record in SR and the tag. -/
theorem decodeAs_cases (checked : Bool) (t : Variant) (img : List Byte) (s : State) :
    (((shapeOk t (imgHlen img).toNat img.length = false) ∨
        (checked = true ∧ verify img (imgFlags img) (imgHlen img).toNat = false)) ∧
      decodeAs checked t img s = answerInvalid s) ∨
    ((shapeOk t (imgHlen img).toNat img.length = true) ∧
        (checked = true → verify img (imgFlags img) (imgHlen img).toNat = true) ∧
      decodeAs checked t img s = answerOk (s.load (recordOf t img)) (valTag t)) := by
  unfold decodeAs
  cases shapeOk t (imgHlen img).toNat img.length <;> cases checked <;>
    cases verify img (imgFlags img) (imgHlen img).toNat <;> simp

/-- The shared decode of an image: INVALID, or the record of the variant the dispatcher selects. -/
theorem decodeImage_cases (checked : Bool) (img : List Byte) (s : State) :
    decodeImage checked img s = answerInvalid s ∨
    ∃ t, minHdr ≤ img.length ∧ dispatch (imgFlags img) img.length = some t ∧
      shapeOk t (imgHlen img).toNat img.length = true ∧
      (checked = true → verify img (imgFlags img) (imgHlen img).toNat = true) ∧
      decodeImage checked img s = answerOk (s.load (recordOf t img)) (valTag t) := by
  unfold decodeImage
  split
  · exact .inl rfl
  · rename_i hlen
    split
    · exact .inl rfl
    · rename_i t ht
      rcases decodeAs_cases checked t img s with ⟨-, h⟩ | ⟨h1, h2, h⟩
      · exact .inl h
      · exact .inr ⟨t, by omega, ht, h1, h2, h⟩

/-- A variant row's meaning: no meaning for a term the row does not select, else the shared decode. -/
theorem runVariant_cases (t : Variant) (img : List Byte) (s : State) :
    (imgSelects (some t) img = false ∧ runVariant t img s = .refused .illFormed) ∨
      (imgSelects (some t) img = true ∧ runVariant t img s = decodeAs true t img s) := by
  unfold runVariant
  cases imgSelects (some t) img <;> simp

/-- What SER answers. -/
theorem execSer_cases (off : Half) (s : State) :
    execSer off s = answerRefused s ∨
      (∃ r, s.sr = some r ∧ off.toNat + r.len.toNat ≤ s.cfg.pbBytes ∧
        execSer off s = answerOk (s.store off.toNat r.image) (valHalf r.len)) := by
  unfold execSer
  cases h : s.sr with
  | none => exact .inl (withRecord_none h _)
  | some r =>
    rw [withRecord_some h]
    rcases withRange_cases s off.toNat r.len.toNat
      (answerOk (s.store off.toNat r.image) (valHalf r.len)) with ⟨_, e⟩ | ⟨h1, e⟩
    · exact .inl e
    · exact .inr ⟨r, rfl, h1, e⟩

/-- What SERC answers. -/
theorem execSerc_cases (off : Half) (s : State) :
    execSerc off s = answerRefused s ∨
      (∃ r, s.sr = some r ∧ off.toNat + r.len.toNat ≤ s.cfg.pbBytes ∧
        execSerc off s = answerOk (s.store off.toNat r.wire) (valHalf r.len)) := by
  unfold execSerc
  cases h : s.sr with
  | none => exact .inl (withRecord_none h _)
  | some r =>
    rw [withRecord_some h]
    rcases withRange_cases s off.toNat r.len.toNat
      (answerOk (s.store off.toNat r.wire) (valHalf r.len)) with ⟨_, e⟩ | ⟨h1, e⟩
    · exact .inl e
    · exact .inr ⟨r, rfl, h1, e⟩

/-- What DESCRIBE answers. -/
theorem execDescribe_cases (off : Half) (s : State) :
    execDescribe off s = answerRefused s ∨
      (∃ r, s.sr = some r ∧ off.toNat + r.text.length ≤ s.cfg.pbBytes ∧
        execDescribe off s = answerOk (s.store off.toNat r.text) (BitVec.ofNat 32 r.text.length)) := by
  unfold execDescribe
  cases h : s.sr with
  | none => exact .inl (withRecord_none h _)
  | some r =>
    rw [withRecord_some h]
    rcases withRange_cases s off.toNat r.text.length
      (answerOk (s.store off.toNat r.text) (BitVec.ofNat 32 r.text.length)) with ⟨_, e⟩ | ⟨h1, e⟩
    · exact .inl e
    · exact .inr ⟨r, rfl, h1, e⟩

/-- What a step does, by what the host does next. -/
theorem step_cases (s : State) :
    (s.host = [] ∧ step s = .next (s.taking [])) ∨
    (∃ e rest, s.host = .present e :: rest ∧ step s = serve e (s.taking rest)) ∨
    (∃ a b rest, s.host = .pbWrite a b :: rest ∧ step s = hostWrite a b (s.taking rest)) := by
  unfold step runNext
  cases h : s.host with
  | nil => exact .inl ⟨rfl, rfl⟩
  | cons x rest =>
    cases x with
    | present e => exact .inr (.inl ⟨e, rest, rfl, rfl⟩)
    | pbWrite a b => exact .inr (.inr ⟨a, b, rest, rfl, rfl⟩)

/-- What the block does with an encoded form, by how it decodes. -/
theorem serve_cases (e : Encoded) (s : State) :
    (∃ i, decode e = .ok i ∧ serve e s = exec i s) ∨
    (∃ op, decode e = .error (.reservedOp op) ∧ serve e s = answerRefused s) ∨
    (∃ n, decode e = .error (.truncated n) ∧ serve e s = answerInvalid s) ∨
    (∃ n, decode e = .error (.tooLong n) ∧ serve e s = .fault .segmentTooLong) := by
  unfold serve
  cases h : decode e with
  | ok i => exact .inl ⟨i, rfl, rfl⟩
  | error d =>
    cases d with
    | reservedOp op => exact .inr (.inl ⟨op, rfl, rfl⟩)
    | truncated n => exact .inr (.inr (.inl ⟨n, rfl, rfl⟩))
    | tooLong n => exact .inr (.inr (.inr ⟨n, rfl, rfl⟩))

/-- What a host read observes. -/
theorem hostRead_cases (s : State) (a n : Nat) :
    (a + n ≤ s.cfg.pbBytes ∧ s.hostRead a n = some (s.pb.readRange a n)) ∨
      (s.cfg.pbBytes < a + n ∧ s.hostRead a n = none) := by
  unfold State.hostRead
  rcases Nat.lt_or_ge s.cfg.pbBytes (a + n) with h | h
  · exact .inr ⟨h, by simp [inPb]; omega⟩
  · exact .inl ⟨h, by simp [inPb, h]⟩

/-- A host write lands in PB, or faults at an address that does not exist. -/
theorem hostWrite_cases (a : Nat) (b : Byte) (s : State) :
    (a + 1 ≤ s.cfg.pbBytes ∧ hostWrite a b s = .next (s.store a [b])) ∨
      (s.cfg.pbBytes < a + 1 ∧ hostWrite a b s = .fault .hostOutsidePb) := by
  unfold hostWrite
  rcases Nat.lt_or_ge s.cfg.pbBytes (a + 1) with h | h
  · exact .inr ⟨h, by simp [inPb]; omega⟩
  · exact .inl ⟨h, by simp [inPb, h]⟩

end Sys2Proof.Machine
end

