-- ==== Sys2Proof/Laws/PerInstr.lean ====
section
/-! SUPPORT. Statements made per instruction. Family Roundtrip: the decoder reads from an instruction's encoding the
instruction itself. -/

namespace Sys2Proof.Laws.Roundtrip

/-- Decoding the encoding of a well-formed instruction gives it back, every operand at every value. -/
def Statement (i : Instr) : Prop := i.wf = true → decode (encode i) = .ok i

theorem cksum (off len : Half) : Statement (.cksum off len) := by
  intro _; simp [encode, decode, decodeCmd]

theorem parse (off len : Half) : Statement (.parse off len) := by
  intro _; simp [encode, decode, decodeCmd]

theorem build (off len : Half) : Statement (.build off len) := by
  intro _; simp [encode, decode, decodeCmd]

theorem ser (off : Half) : Statement (.ser off) := by
  intro _; simp [encode, decode, decodeCmd]

theorem serc (off : Half) : Statement (.serc off) := by
  intro _; simp [encode, decode, decodeCmd]

theorem describe (off : Half) : Statement (.describe off) := by
  intro _; simp [encode, decode, decodeCmd]

theorem getflags : Statement .getflags := by
  intro _; simp [encode, decode, decodeCmd]

theorem gethlen : Statement .gethlen := by
  intro _; simp [encode, decode, decodeCmd]

theorem getseq : Statement .getseq := by
  intro _; simp [encode, decode, decodeCmd]

theorem getack : Statement .getack := by
  intro _; simp [encode, decode, decodeCmd]

theorem getlen : Statement .getlen := by
  intro _; simp [encode, decode, decodeCmd]

theorem gettype : Statement .gettype := by
  intro _; simp [encode, decode, decodeCmd]

theorem getretx : Statement .getretx := by
  intro _; simp [encode, decode, decodeCmd]

theorem rdhext (idx : Half) : Statement (.rdhext idx) := by
  intro _; simp [encode, decode, decodeCmd]

theorem rdtpay (idx : Half) : Statement (.rdtpay idx) := by
  intro _; simp [encode, decode, decodeCmd]

theorem setretx (n : Word) : Statement (.setretx n) := by
  intro _; simp [encode, decode, decodeCmd]

theorem setack (ackn : Byte) : Statement (.setack ackn) := by
  intro _; simp [encode, decode, decodeCmd]

theorem variantSyn (img : List Byte) : Statement (.variantSyn img) :=
  fun h => decodeSeg_of_selects (v := some .syn) h

theorem variantNul (img : List Byte) : Statement (.variantNul img) :=
  fun h => decodeSeg_of_selects (v := some .nul) h

theorem variantEak (img : List Byte) : Statement (.variantEak img) :=
  fun h => decodeSeg_of_selects (v := some .eak) h

theorem variantRst (img : List Byte) : Statement (.variantRst img) :=
  fun h => decodeSeg_of_selects (v := some .rst) h

theorem variantClz (img : List Byte) : Statement (.variantClz img) :=
  fun h => decodeSeg_of_selects (v := some .clz) h

theorem variantFin (img : List Byte) : Statement (.variantFin img) :=
  fun h => decodeSeg_of_selects (v := some .fin) h

theorem variantAck (img : List Byte) : Statement (.variantAck img) :=
  fun h => decodeSeg_of_selects (v := some .ack) h

theorem variantDat (img : List Byte) : Statement (.variantDat img) :=
  fun h => decodeSeg_of_selects (v := some .dat) h

theorem variantNone (img : List Byte) : Statement (.variantNone img) :=
  fun h => decodeSeg_of_selects (v := none) h

end Sys2Proof.Laws.Roundtrip
end

