-- ==== Sys2Proof/Laws/Segment.lean ====
section
/-! SUPPORT. Small lemmas of a segment as an image and as a record. -/

namespace Sys2Proof.Machine

/-- 10_state.md R21 of a record, clause by clause. -/
theorem Record.wf_iff (r : Record) :
    r.wf = true ↔ 6 ≤ r.hlen.toNat ∧ r.hlen.toNat ≤ r.len.toNat ∧ r.hext.length = r.hlen.toNat - 6 ∧
      r.tpay.length = r.len.toNat - r.hlen.toNat ∧ dispatch r.flags r.len.toNat = some r.type ∧
      shapeOk r.type r.hlen.toNat r.len.toNat = true ∧ r.ackn.isSome = ackSet r.flags := by
  simp [Record.wf, and_assoc]

/-- An image is exactly `SR.LEN` bytes, for every record. -/
@[simp] theorem Record.image_length (r : Record) : r.image.length = r.len.toNat := by
  simp only [Record.image, List.length_take, List.length_append, List.length_replicate]
  omega

@[simp] theorem Record.wire_length (r : Record) : r.wire.length = r.len.toNat := by
  simp [Record.wire]

/-- The image of a record that meets 10_state.md R21 is its parts in wire order (30_encoding.md R45). -/
theorem Record.image_eq {r : Record} (h : r.wf = true) :
    r.image = [r.flags, r.hlen, r.seq, r.ackByte] ++ r.hext ++ [0, 0] ++ r.tpay := by
  rw [Record.wf_iff] at h
  have hl : ([r.flags, r.hlen, r.seq, r.ackByte] ++ r.hext ++ [0, 0] ++ r.tpay).length = r.len.toNat := by
    simp only [List.length_append, List.length_cons, List.length_nil]; omega
  simp only [Record.image, hl, Nat.sub_self, List.replicate_zero, List.append_nil]
  rw [← hl, List.take_length]

/-- The image byte by byte (41_segment_facade.md R87). -/
theorem Record.image_getElem {r : Record} (h : r.wf = true) (k : Nat) (hk : k < r.image.length) :
    r.image[k] = r.byteAt k := by
  have h' := h
  rw [Record.wf_iff] at h'
  obtain ⟨a, b, c, d, -, -, -⟩ := h'
  have hl := r.image_length
  have e := Record.image_eq h
  have : r.image[k]? = some (r.byteAt k) := by
    rw [e]
    unfold Record.byteAt
    match k, hk with
    | 0, _ => rfl
    | 1, _ => rfl
    | 2, _ => rfl
    | 3, _ => rfl
    | k+4, hk =>
      rw [if_neg (by omega), if_neg (by omega), if_neg (by omega), if_neg (by omega)]
      simp only [List.append_assoc, List.cons_append, List.nil_append, List.getElem?_cons_succ]
      by_cases h1 : k + 4 + 2 < r.hlen.toNat
      · rw [if_pos h1, List.getElem?_append_left (by omega), show k + 4 - 4 = k by omega,
          List.getD_eq_getElem _ _ (by omega), List.getElem?_eq_getElem]
      · rw [if_neg h1, List.getElem?_append_right (by omega)]
        by_cases h2 : k + 4 < r.hlen.toNat
        · rw [if_pos h2]
          have : k - r.hext.length = 0 ∨ k - r.hext.length = 1 := by omega
          rcases this with h | h <;> rw [h] <;> rfl
        · rw [if_neg h2]
          obtain ⟨j, hj⟩ : ∃ j, k - r.hext.length = j + 2 := ⟨k - r.hext.length - 2, by omega⟩
          rw [hj]; simp only [List.getElem?_cons_succ]
          have : k + 4 - r.hlen.toNat = j := by omega
          rw [this, List.getD_eq_getElem _ _ (by omega), List.getElem?_eq_getElem]
  rw [List.getElem?_eq_getElem hk] at this; exact Option.some.inj this

@[simp] theorem recordOf_retx (t : Variant) (img : List Byte) : (recordOf t img).retx = 0 := rfl
@[simp] theorem recordOf_type (t : Variant) (img : List Byte) : (recordOf t img).type = t := rfl
@[simp] theorem recordOf_flags (t : Variant) (img : List Byte) : (recordOf t img).flags = imgFlags img := rfl
@[simp] theorem recordOf_hlen (t : Variant) (img : List Byte) : (recordOf t img).hlen = imgHlen img := rfl
@[simp] theorem recordOf_seq (t : Variant) (img : List Byte) : (recordOf t img).seq = imgSeq img := rfl
@[simp] theorem recordOf_ackn (t : Variant) (img : List Byte) : (recordOf t img).ackn = imgAckn img := rfl

theorem recordOf_len {t : Variant} {img : List Byte} (h : img.length ≤ 65535) :
    (recordOf t img).len.toNat = img.length := by
  simp only [recordOf, BitVec.toNat_ofNat]; omega

/-- The shape test implies the bounds every variant shares (42_type_dispatcher.md R112). -/
theorem shapeOk_bounds {t : Variant} {hlen len : Nat} (h : shapeOk t hlen len = true) : 6 ≤ hlen ∧ hlen ≤ len := by
  unfold shapeOk minHdr at h
  split at h
  · cases h
  · split at h
    · cases h
    · omega

/-- A record that a successful decode stores meets 10_state.md R21. -/
theorem recordOf_wf {t : Variant} {img : List Byte} (hl : img.length ≤ 65535)
    (hd : dispatch (imgFlags img) img.length = some t)
    (hs : shapeOk t (imgHlen img).toNat img.length = true) : (recordOf t img).wf = true := by
  obtain ⟨h6, hle⟩ := shapeOk_bounds hs
  rw [Record.wf_iff, recordOf_len hl]
  refine ⟨h6, hle, ?_, ?_, hd, hs, ?_⟩
  · simp only [recordOf, slice, List.length_take, List.length_drop]; omega
  · simp [recordOf]
  · simp only [recordOf, imgAckn]; split <;> simp_all

/-- Setting the ACK bit of a flags byte that selects a variant does not change the variant (41_segment_facade.md R101). -/
theorem dispatch_withAck {f : Byte} {len : Nat} {t : Variant} (h : dispatch f len = some t) :
    dispatch (withAck f) len = some t := by
  have key : ∀ f : Byte, ∀ b : Bool,
      (if hasFlag f fSyn then some Variant.syn
        else if hasFlag f fNul then some .nul else if hasFlag f fEak then some .eak
        else if hasFlag f fRst then some .rst else if hasFlag f fClz then some .clz
        else if hasFlag f fFin then some .fin
        else if hasFlag f fAck then (if b then some .ack else some .dat) else none).isSome = true →
      (if hasFlag (withAck f) fSyn then some Variant.syn
        else if hasFlag (withAck f) fNul then some .nul else if hasFlag (withAck f) fEak then some .eak
        else if hasFlag (withAck f) fRst then some .rst else if hasFlag (withAck f) fClz then some .clz
        else if hasFlag (withAck f) fFin then some .fin
        else if hasFlag (withAck f) fAck then (if b then some .ack else some .dat) else none) =
      (if hasFlag f fSyn then some Variant.syn
        else if hasFlag f fNul then some .nul else if hasFlag f fEak then some .eak
        else if hasFlag f fRst then some .rst else if hasFlag f fClz then some .clz
        else if hasFlag f fFin then some .fin
        else if hasFlag f fAck then (if b then some .ack else some .dat) else none) := by decide
  have := key f (decide (len = minHdr))
  simp only [decide_eq_true_eq] at this
  rw [← h]
  exact this (by show (dispatch f len).isSome = true; rw [h]; rfl)

end Sys2Proof.Machine
end

