-- ==== Sys2Proof/Tests/Slice0.lean ====
section
/-! SUPPORT. The model's own tests: the well-formedness smoke, one written-out word per constructor, at most two one-step
tests per instruction (expected values from spec/95_test_vectors.md and the examples of the rules), and witnesses that
the hypotheses of the statements can be met. -/

namespace Sys2Proof.Tests
open Sys2Proof Sys2Proof.Machine

/-- A reset state whose PB begins with the given bytes. -/
def holding (img : List Byte) : State := State.resetWith Config.standard (Memory.writeRange [] 0 img)
/-- A reset state with a PB of sixteen bytes that begins with the given ones. -/
def small (img : List Byte) : State := State.resetWith { pbBytes := 16 } (Memory.writeRange [] 0 img)
/-- A reset state with a record. -/
def withSr (r : Record) : State := { State.reset with sr := some r }
/-- The response of a result. -/
def out (r : Result) : Option Response := (nextOf r).bind State.rsp
/-- The record after a result. -/
def srOf (r : Result) : Option Record := (nextOf r).bind State.sr
/-- Bytes of PB after a result. -/
def pbOf (r : Result) (a n : Nat) : Option (List Byte) := (nextOf r).map fun t => t.pb.readRange a n

/-- V47. -/
def ackRec : Record := ⟨0x40, 6, 5, some 3, 6, .ack, [], [], 0⟩
/-- V44. -/
def finRec : Record := ⟨0x02, 6, 200, none, 6, .fin, [], [], 0⟩
/-- V41. -/
def eakRec : Record := ⟨0x60, 8, 0x11, some 0x0F, 8, .eak, [0x12, 0x14], [], 0⟩
/-- V17. -/
def eakOdd : Record := ⟨0x60, 7, 0x11, some 0x0F, 7, .eak, [0x12], [], 0⟩
/-- V50. -/
def datRec : Record := ⟨0x44, 6, 9, some 8, 9, .dat, [], [0x68, 0x69, 0x21], 0⟩

/-- V36. -/
def synImg : List Byte := [0xC0, 0x0A, 0x10, 0x20, 0x01, 0x00, 0x04, 0x00, 0x2A, 0xD5]
/-- V39. -/
def nulImg : List Byte := [0x08, 0x06, 0x07, 0x00, 0xF0, 0xF9]
/-- V41. -/
def eakImg : List Byte := [0x60, 0x08, 0x11, 0x0F, 0x12, 0x14, 0x7C, 0xD4]
/-- V42. -/
def rstImg : List Byte := [0x10, 0x06, 0x01, 0x00, 0xEE, 0xF9]
/-- V43. -/
def clzImg : List Byte := [0x01, 0x06, 0x02, 0x00, 0xFC, 0xF9]
/-- V45. -/
def finImg : List Byte := [0x42, 0x06, 0xC8, 0xC7, 0xF5, 0x31]
/-- V47. -/
def ackImg : List Byte := [0x40, 0x06, 0x05, 0x03, 0xBA, 0xF6]
/-- V50. -/
def datImg : List Byte := [0x44, 0x06, 0x09, 0x08, 0x29, 0x88, 0x68, 0x69, 0x21]
/-- V23. -/
def noneImg : List Byte := [0x04, 0x06, 0x05, 0x03, 0xF6, 0xF6]

/-! ### Well-formedness: ill-formed terms are refused -/

theorem test_wf_too_short : (Instr.variantSyn [0x80, 0x06, 0x00, 0x00, 0x7F]).wf = false := by decide
theorem test_wf_empty : (Instr.variantNone []).wf = false := by decide
theorem test_wf_too_long (img : List Byte) (h : img.length = 65536) : (Instr.variantSyn img).wf = false := by
  simp [Instr.wf, imgSelects, imgLenOk, h]
theorem test_wf_too_long_image : (List.replicate 65536 (0x80 : Byte)).length = 65536 := List.length_replicate
theorem test_wf_other_row : (Instr.variantNul synImg).wf = false ∧ (Instr.variantEak nulImg).wf = false ∧
    (Instr.variantRst eakImg).wf = false ∧ (Instr.variantClz rstImg).wf = false ∧
    (Instr.variantFin clzImg).wf = false ∧ (Instr.variantSyn finImg).wf = false ∧
    (Instr.variantNone ackImg).wf = false := by decide
theorem test_wf_len_condition : (Instr.variantAck datImg).wf = false ∧ (Instr.variantDat ackImg).wf = false := by decide
theorem test_wf_accepts : (Instr.variantSyn synImg).wf = true ∧ (Instr.variantNul nulImg).wf = true ∧
    (Instr.variantEak eakImg).wf = true ∧ (Instr.variantRst rstImg).wf = true ∧ (Instr.variantClz clzImg).wf = true ∧
    (Instr.variantFin finImg).wf = true ∧ (Instr.variantAck ackImg).wf = true ∧ (Instr.variantDat datImg).wf = true ∧
    (Instr.variantNone noneImg).wf = true := by decide

/-! ### Decoding: a word of every row, written out from 30_encoding.md R60, R61 and the bytes of R45 -/

theorem test_decode_cksum : decode (.cmd 0x0112345678) = .ok (.cksum 0x1234 0x5678) := by rfl
theorem test_decode_parse : decode (.cmd 0x0200100006) = .ok (.parse 0x0010 0x0006) := by rfl
theorem test_decode_build : decode (.cmd 0x03FFFF0001) = .ok (.build 0xFFFF 0x0001) := by rfl
theorem test_decode_ser : decode (.cmd 0x04FFFC5555) = .ok (.ser 0xFFFC) := by rfl
theorem test_decode_serc : decode (.cmd 0x0500205555) = .ok (.serc 0x0020) := by rfl
theorem test_decode_describe : decode (.cmd 0x0601005555) = .ok (.describe 0x0100) := by rfl
theorem test_decode_getflags : decode (.cmd 0x10DEADBEEF) = .ok .getflags := by rfl
theorem test_decode_gethlen : decode (.cmd 0x11DEADBEEF) = .ok .gethlen := by rfl
theorem test_decode_getseq : decode (.cmd 0x12DEADBEEF) = .ok .getseq := by rfl
theorem test_decode_getack : decode (.cmd 0x13DEADBEEF) = .ok .getack := by rfl
theorem test_decode_getlen : decode (.cmd 0x14DEADBEEF) = .ok .getlen := by rfl
theorem test_decode_gettype : decode (.cmd 0x15DEADBEEF) = .ok .gettype := by rfl
theorem test_decode_getretx : decode (.cmd 0x16DEADBEEF) = .ok .getretx := by rfl
theorem test_decode_rdhext : decode (.cmd 0x17ABCD0102) = .ok (.rdhext 0x0102) := by rfl
theorem test_decode_rdtpay : decode (.cmd 0x18FFFF0003) = .ok (.rdtpay 0x0003) := by rfl
theorem test_decode_setretx : decode (.cmd 0x2089ABCDEF) = .ok (.setretx 0x89ABCDEF) := by rfl
theorem test_decode_setack : decode (.cmd 0x21FFFFFF21) = .ok (.setack 0x21) := by rfl
theorem test_decode_variantSyn : decode (.seg synImg) = .ok (.variantSyn synImg) := by rfl
theorem test_decode_variantNul : decode (.seg nulImg) = .ok (.variantNul nulImg) := by rfl
theorem test_decode_variantEak : decode (.seg eakImg) = .ok (.variantEak eakImg) := by rfl
theorem test_decode_variantRst : decode (.seg rstImg) = .ok (.variantRst rstImg) := by rfl
theorem test_decode_variantClz : decode (.seg clzImg) = .ok (.variantClz clzImg) := by rfl
theorem test_decode_variantFin : decode (.seg finImg) = .ok (.variantFin finImg) := by rfl
theorem test_decode_variantAck : decode (.seg ackImg) = .ok (.variantAck ackImg) := by rfl
theorem test_decode_variantDat : decode (.seg datImg) = .ok (.variantDat datImg) := by rfl
theorem test_decode_variantNone : decode (.seg noneImg) = .ok (.variantNone noneImg) := by rfl
theorem test_decode_rejects : decode (.cmd 0x0700000000) = .error (.reservedOp 0x07) ∧
    decode (.seg [0x40, 0x06]) = .error (.truncated 2) := ⟨rfl, rfl⟩
theorem test_table_words : decodeTableWord 40 0x0200100006 = some (.parse 0x0010 6) ∧
    decodeTableWord 8 0x10 = some (.variantRst [0x10, 0, 0, 0, 0, 0]) ∧
    decodeTableWord 8 0x40 = some (.variantAck [0x40, 0, 0, 0, 0, 0]) := by decide

/-! ### One step: at most two tests for each instruction -/

theorem test_cksum_pairs_from_offset : -- V13a
    out (exec (.cksum 1 6) (holding [0xAA, 0x40, 0x06, 0x05, 0x03, 0x00, 0x00, 0xBB])) = some (.ok 0xBAF6) := by decide
theorem test_cksum_two_folds : -- V8
    out (exec (.cksum 0 6) (holding [0xFF, 0xFF, 0xFF, 0xFF, 0x00, 0x01])) = some (.ok 0xFFFE) := by decide
theorem test_parse_source_scenario : -- S1, V47
    out (exec (.parse 0 6) (holding ackImg)) = some (.ok 6) ∧ srOf (exec (.parse 0 6) (holding ackImg)) = some ackRec := by
  decide
theorem test_parse_bad_checksum_empties : -- V21
    nextOf (exec (.parse 0 6) { holding [0x40, 0x06, 0x05, 0x03, 0xBA, 0xF7] with sr := some datRec }) =
      some { holding [0x40, 0x06, 0x05, 0x03, 0xBA, 0xF7] with rsp := some .invalid, served := 1 } := by decide
theorem test_build_ignores_checksum : -- V21
    out (exec (.build 0 6) (holding [0x40, 0x06, 0x05, 0x03, 0xBA, 0xF7])) = some (.ok 6) ∧
    srOf (exec (.build 0 6) (holding [0x40, 0x06, 0x05, 0x03, 0xBA, 0xF7])) = some ackRec := by decide
theorem test_build_no_type_bit : -- V23
    out (exec (.build 0 6) (holding noneImg)) = some .invalid := by decide
theorem test_ser_writes_image : -- V41
    pbOf (exec (.ser 0x20) (withSr eakRec)) 0x1F 10 =
      some [0x00, 0x60, 0x08, 0x11, 0x0F, 0x12, 0x14, 0x00, 0x00, 0x00] := by decide
theorem test_ser_empty : out (exec (.ser 0) State.reset) = some .refused := by decide
theorem test_serc_chk_covers_payload : -- V50
    pbOf (exec (.serc 0) (withSr datRec)) 0 9 = some datImg := by decide
theorem test_serc_odd_hlen : -- V17
    pbOf (exec (.serc 0) (withSr eakOdd)) 0 7 = some [0x60, 0x07, 0x11, 0x0F, 0x12, 0x7C, 0xE9] := by decide
theorem test_describe_text : -- 41_segment_facade.md R103
    pbOf (exec (.describe 0) (withSr ackRec)) 0 33 =
      some [0x41, 0x43, 0x4B, 0x20, 0x5B, 0x20, 0x53, 0x45, 0x51, 0x20, 0x3D, 0x20, 0x35, 0x2C, 0x20, 0x41, 0x43, 0x4B,
        0x20, 0x3D, 0x20, 0x33, 0x2C, 0x20, 0x4C, 0x45, 0x4E, 0x20, 0x3D, 0x20, 0x36, 0x20, 0x5D] := by decide
theorem test_describe_range : -- 33 bytes from 0xFFE0 pass the end, from 0xFFDF they do not
    out (exec (.describe 0xFFE0) (withSr ackRec)) = some .refused ∧
    out (exec (.describe 0xFFDF) (withSr ackRec)) = some (.ok 33) := by decide
theorem test_getflags : out (exec .getflags (withSr eakRec)) = some (.ok 0x60) := by decide
theorem test_gethlen : out (exec .gethlen (withSr eakRec)) = some (.ok 8) := by decide
theorem test_getseq : out (exec .getseq (withSr finRec)) = some (.ok 200) := by decide
theorem test_getack_present : out (exec .getack (withSr ackRec)) = some (.ok 0x103) := by decide
theorem test_getack_absent : out (exec .getack (withSr finRec)) = some .okAbsent := by decide
theorem test_getlen : out (exec .getlen (withSr datRec)) = some (.ok 9) := by decide
theorem test_gettype : out (exec .gettype (withSr datRec)) = some (.ok 7) := by decide
theorem test_getretx : out (exec .getretx (withSr { ackRec with retx := 0x80000001 })) = some (.ok 0x80000001) := by decide
theorem test_rdhext_last : out (exec (.rdhext 1) (withSr eakRec)) = some (.ok 0x14) := by decide
theorem test_rdhext_past : out (exec (.rdhext 2) (withSr eakRec)) = some .refused := by decide
theorem test_rdtpay_last : out (exec (.rdtpay 2) (withSr datRec)) = some (.ok 0x21) := by decide
theorem test_rdtpay_past : out (exec (.rdtpay 3) (withSr datRec)) = some .refused := by decide
theorem test_setretx : nextOf (exec (.setretx 0xFFFFFFFF) (withSr ackRec)) =
    some { withSr { ackRec with retx := 0xFFFFFFFF } with rsp := some (.ok 0), served := 1 } := by decide
theorem test_setack_piggyback : -- 41_segment_facade.md R101
    srOf (exec (.setack 199) (withSr finRec)) = some ⟨0x42, 6, 200, some 199, 6, .fin, [], [], 0⟩ := by decide
theorem test_setack_empty : out (exec (.setack 0) State.reset) = some .refused := by decide
theorem test_variantSyn : out (exec (.variantSyn synImg) State.reset) = some (.ok 0) ∧
    srOf (exec (.variantSyn synImg) State.reset) =
      some ⟨0xC0, 10, 0x10, some 0x20, 10, .syn, [0x01, 0x00, 0x04, 0x00], [], 0⟩ := by decide
theorem test_variantNul : srOf (exec (.variantNul nulImg) State.reset) = some ⟨0x08, 6, 7, none, 6, .nul, [], [], 0⟩ := by
  decide
theorem test_variantNul_seven_bytes : -- V26
    out (exec (.variantNul [0x08, 0x06, 0x07, 0x00, 0x00, 0x00, 0x00]) State.reset) = some .invalid := by decide
theorem test_variantEak : srOf (exec (.variantEak eakImg) State.reset) = some eakRec := by decide
theorem test_variantRst : out (exec (.variantRst rstImg) State.reset) = some (.ok 3) := by decide
theorem test_variantClz : out (exec (.variantClz clzImg) State.reset) = some (.ok 4) := by decide
theorem test_variantFin : srOf (exec (.variantFin finImg) State.reset) =
    some ⟨0x42, 6, 0xC8, some 0xC7, 6, .fin, [], [], 0⟩ := by decide
theorem test_variantAck : srOf (exec (.variantAck ackImg) State.reset) = some ackRec := by decide
theorem test_variantDat : out (exec (.variantDat datImg) State.reset) = some (.ok 7) ∧
    srOf (exec (.variantDat datImg) State.reset) = some datRec := by decide
theorem test_variantNone : out (exec (.variantNone noneImg) State.reset) = some .invalid := by decide
theorem test_step_table_word : -- a table word as the first instruction after reset
    out (step (State.reset.withFetchWord 40 0x0100000000)) = some (.ok 0xFFFF) ∧
    out (step (State.reset.withFetchWord 8 0x10)) = some .invalid ∧
    out (step (State.reset.withFetchWord 40 0x0000000000)) = some .refused := by decide
theorem test_host_write : -- 20_memory.md R30
    pbOf (step { State.reset with host := [.pbWrite 0xFFFF 0xA5] }) 0xFFFE 2 = some [0x00, 0xA5] := by decide

/-! ### Witnesses: the hypotheses of each statement can be met -/

theorem test_witness_decode_agree : (Instr.variantDat datImg).wf = true ∧
    decode (.cmd 0x2100000021) = .ok (.setack 0x21) := ⟨by decide, rfl⟩
theorem test_witness_reserved_codes :
    [0x00, 0x07, 0x0F, 0x19, 0x1F, 0x22, 0xFF].map (fun op => decodeTableWord 40 (op <<< 32)) = List.replicate 7 none ∧
    ([0x01, 0x06, 0x10, 0x18, 0x20, 0x21].map fun op => (decodeTableWord 40 (op <<< 32)).isSome) =
      List.replicate 6 true := by decide
theorem test_witness_reserved_step :
    nextOf (step { withSr ackRec with host := [.present (.cmd 0xFF00000000)] }) =
      some { withSr ackRec with rsp := some .refused, served := 1 } := by decide
theorem test_witness_rows : (0xFF &&& 0x80 : Byte) = 0x80 ∧ (0x7F &&& 0x88 : Byte) = 0x08 ∧ (0x77 &&& 0xA8 : Byte) = 0x20 ∧
    (0x57 &&& 0xB8 : Byte) = 0x10 ∧ (0x47 &&& 0xB9 : Byte) = 0x01 ∧ (0x46 &&& 0xBB : Byte) = 0x02 ∧
    (0x44 &&& 0xFB : Byte) = 0x40 ∧ (0x04 &&& 0xFB : Byte) = 0x00 ∧
    [dispatch 0xFF 6, dispatch 0x7F 6, dispatch 0x77 6, dispatch 0x57 6, dispatch 0x47 6, dispatch 0x46 6,
      dispatch 0x44 6, dispatch 0x44 7, dispatch 0x04 6] =
      [some .syn, some .nul, some .eak, some .rst, some .clz, some .fin, some .ack, some .dat, none] := by decide
theorem test_witness_flags_without_variant : -- the range ends at the end of PB
    (10 : Half).toNat + (6 : Half).toNat ≤ (small (List.replicate 10 0x11 ++ noneImg)).cfg.pbBytes ∧
    (small (List.replicate 10 0x11 ++ noneImg)).pb.read 10 = 0x04 ∧
    out (exec (.parse 10 6) (small (List.replicate 10 0x11 ++ noneImg))) = some .invalid := by decide
theorem test_witness_illegal_lengths : -- len 5; HLEN 5; HLEN above len; NUL and ACK with other lengths
    out (exec (.parse 0 5) (holding ackImg)) = some .invalid ∧
    out (exec (.parse 0 6) (holding [0x80, 0x05])) = some .invalid ∧
    out (exec (.parse 0 6) (holding [0x80, 0x07])) = some .invalid ∧
    (dispatch 0x08 7 = some .nul ∧ out (exec (.build 0 7) (holding [0x08, 0x06])) = some .invalid) ∧
    (dispatch 0x10 7 = some .rst ∧ out (exec (.build 0 7) (holding [0x10, 0x07])) = some .invalid) ∧
    (dispatch 0x01 7 = some .clz ∧ out (exec (.build 0 7) (holding [0x01, 0x06])) = some .invalid) ∧
    (dispatch 0x02 8 = some .fin ∧ out (exec (.build 0 8) (holding [0x02, 0x08])) = some .invalid) ∧
    (dispatch 0x40 6 = some .ack ∧ out (exec (.build 0 6) (holding [0x40, 0x07])) = some .invalid) := by decide
theorem test_witness_fold : fold 1 = 1 ∧ fold 0xFFFF = 0xFFFF ∧ fold 0x10000 = 1 ∧ fold 0x1FFFE = 0xFFFF ∧
    fold 0x2DDF0 = 0xDDF2 ∧ (0xDDF2 % 0xFFFF = 0x2DDF0 % 0xFFFF) := by decide
theorem test_witness_sum_bound : (List.replicate 65535 (0xFF : Byte)).length ≤ 65535 :=
  Nat.le_of_eq List.length_replicate
theorem test_witness_cksum : -- refused past the end; in range up to it; empty at the very end; one byte
    out (exec (.cksum 16 1) (small [])) = some .refused ∧ out (exec (.cksum 0 16) (small [])) = some (.ok 0xFFFF) ∧
    out (exec (.cksum 16 0) (small [])) = some (.ok 0xFFFF) ∧
    out (exec (.cksum 15 1) (small (List.replicate 16 0x01))) = some (.ok 0xFEFF) := by decide
theorem test_witness_inject_even : 6 ≤ 6 ∧ 6 ≤ ackImg.length ∧ 6 % 2 = 0 ∧ cksum (inject ackImg 0x40 6) = 0 := by decide
theorem test_witness_inject_odd : 6 ≤ 7 ∧ 7 ≤ eakOdd.image.length ∧ 7 % 2 = 1 ∧
    cksum ((inject eakOdd.image 0x60 7).take 7) ≠ 0 ∧
    cksum ((setCkField eakOdd.image 7 0xE97C).take 7) = 0 ∧
    cksum ((inject [0x60, 0x07, 0x00, 0x00, 0xA8, 0x00, 0x00] 0x60 7).take 7) = 0 := by decide -- V17, V18, V18a
theorem test_witness_field_values :
    fold (wsum (setCkField [0x40, 0x06, 0xBF, 0xF9, 0xFF, 0xFF] 6 0)) = 0xFFFF ∧
    fold (wsum (setCkField ackImg 6 0)) ≠ 0xFFFF := by decide
theorem test_witness_single_bit : -- the last covered bit; a bit of the flags byte; the first payload byte under CHK
    cksum ackImg = 0 ∧ cksum (ackImg.set 5 (0xF6 ^^^ 0x01)) ≠ 0 ∧ cksum (ackImg.set 0 (0x40 ^^^ 0x80)) ≠ 0 ∧
    cksum datImg = 0 ∧ cksum (datImg.set 6 (0x68 ^^^ 0x80)) ≠ 0 := by decide
theorem test_witness_parse : -- every outcome, the successful one with a range that ends at the end of PB
    out (exec (.parse 11 6) (small [])) = some .refused ∧ out (exec (.parse 10 5) (small [])) = some .invalid ∧
    out (exec (.parse 0 6) (small noneImg)) = some .invalid ∧
    (dispatch 0x40 6 = some .ack ∧ shapeOk .ack 7 6 = false ∧ shapeOk .ack 6 6 = true) ∧
    out (exec (.parse 0 6) (small [0x40, 0x06, 0x05, 0x03, 0xBA, 0xF7])) = some .invalid ∧
    out (exec (.parse 10 6) (small (List.replicate 10 0x11 ++ ackImg))) = some (.ok 6) := by decide
theorem test_witness_parse_depends : -- two states that differ outside the range and in SR
    srOf (exec (.parse 0 6) (small ackImg)) =
      srOf (exec (.parse 0 6) { small (ackImg ++ [0x77]) with sr := some finRec }) := by decide
theorem test_witness_build :
    out (exec (.build 11 6) (small [])) = some .refused ∧ out (exec (.build 11 5) (small [])) = some .invalid ∧
    out (exec (.build 0 6) (small noneImg)) = some .invalid ∧
    out (exec (.build 0 6) (small [0x80, 0x07])) = some .invalid ∧
    out (exec (.build 10 6) (small (List.replicate 10 0x11 ++ ackImg))) = some (.ok 6) := by decide
theorem test_witness_build_ignores : 6 ≤ ((small ackImg).pb.read 1).toNat ∧
    srOf (exec (.build 0 6) (small ackImg)) =
      srOf (exec (.build 0 6) (small [0x40, 0x06, 0x05, 0x03, 0x00, 0xFF])) := by decide
theorem test_witness_clear_chk : -- V49 and the same header with another payload
    out (exec (.parse 0 9) (small [0x40, 0x06, 0x09, 0x08, 0xB6, 0xF1, 0x68, 0x69, 0x21])) = some (.ok 7) ∧
    out (exec (.parse 0 9) (small [0x40, 0x06, 0x09, 0x08, 0xB6, 0xF1, 0xFF, 0x00, 0x22])) = some (.ok 7) := by decide
theorem test_witness_variants_invalid : -- shape, then checksum, of the rows whose success is tested above
    [out (exec (.variantSyn [0x80, 0x05, 0x00, 0x00, 0x00, 0x00]) State.reset),
      out (exec (.variantSyn [0x80, 0x06, 0x00, 0x00, 0x00, 0x00]) State.reset),
      out (exec (.variantEak [0x20, 0x07, 0x00, 0x00, 0x00, 0x00]) State.reset),
      out (exec (.variantEak [0x20, 0x06, 0x00, 0x00, 0x00, 0x00]) State.reset),
      out (exec (.variantRst [0x10, 0x07, 0x00, 0x00, 0x00, 0x00]) State.reset),
      out (exec (.variantClz [0x01, 0x06, 0x00, 0x00, 0x00, 0x00]) State.reset),
      out (exec (.variantFin [0x02, 0x06, 0x00, 0x00, 0x00, 0x00, 0x00]) State.reset),
      out (exec (.variantAck [0x40, 0x07, 0x00, 0x00, 0x00, 0x00]) State.reset),
      out (exec (.variantAck [0x40, 0x06, 0x00, 0x00, 0x00, 0x00]) State.reset),
      out (exec (.variantDat [0x40, 0x08, 0x00, 0x00, 0x00, 0x00, 0x00]) State.reset),
      out (exec (.variantDat [0x40, 0x06, 0x00, 0x00, 0x00, 0x00, 0x00]) State.reset)] =
      List.replicate 11 (some .invalid) := by decide
theorem test_witness_delegates :
    decode (.seg ((small ackImg).pb.readRange 0 6)) = .ok (.variantAck ackImg) ∧
    decode (.seg ((small ackImg).pb.readRange 0 5)) = .error (.truncated 5) := ⟨rfl, rfl⟩
theorem test_witness_good_states : (withSr ackRec).wf = true ∧ (withSr finRec).wf = true ∧ (withSr eakRec).wf = true ∧
    (withSr eakOdd).wf = true ∧ (withSr datRec).wf = true ∧ (small ackImg).wf = true := by decide
theorem test_witness_ser : -- the last offset at which six bytes fit, and the one after
    out (exec (.ser 10) { small [] with sr := some ackRec }) = some (.ok 6) ∧
    out (exec (.ser 11) { small [] with sr := some ackRec }) = some .refused ∧
    out (exec (.serc 10) { small [] with sr := some ackRec }) = some (.ok 6) ∧
    out (exec (.serc 11) { small [] with sr := some ackRec }) = some .refused := by decide
theorem test_witness_describe : ackRec.text.length = 33 ∧ out (exec (.describe 0) { small [] with sr := some ackRec }) =
    some .refused ∧ out (exec (.describe 0) State.reset) = some .refused ∧ dec 65535 = [0x36, 0x35, 0x35, 0x33, 0x35] := by
  decide
theorem test_witness_reserialise : eakRec.hlen.toNat % 2 = 0 ∧ 0 + eakRec.len.toNat ≤ State.reset.cfg.pbBytes ∧
    ((nextOf (exec (.serc 0) (withSr { eakRec with retx := 7 }))).bind fun t => srOf (exec (.parse 0 8) t)) =
      some eakRec := by decide
theorem test_witness_build_after_ser :
    ((nextOf (exec (.ser 0) (withSr { eakOdd with retx := 7 }))).bind fun t => srOf (exec (.build 0 7) t)) =
      some eakOdd := by decide
theorem test_witness_region : eakRec.hext[1]? = some 0x14 ∧ eakRec.byteAt 5 = 0x14 ∧ datRec.tpay[2]? = some 0x21 ∧
    datRec.byteAt 8 = 0x21 := by decide
theorem test_witness_empty : State.reset.sr = none ∧ out (exec .getflags State.reset) = some .refused ∧
    out (exec (.rdhext 0) State.reset) = some .refused ∧ out (exec (.setretx 3) State.reset) = some .refused := by decide
theorem test_witness_range_limit : 10 + ackRec.len.toNat = 16 ∧ 0xFFDF + ackRec.text.length = State.reset.cfg.pbBytes := by
  decide
theorem test_witness_refused : refusedOn State.reset .getflags = true ∧ refusedOn (withSr ackRec) .getflags = false ∧
    out (serve (.cmd 0x1000000000) State.reset) = some .refused := by decide
theorem test_witness_invalid : out (serve (.cmd 0x0200000006) State.reset) = some .invalid ∧
    out (serve (.cmd 0x0300000005) State.reset) = some .invalid := by decide
theorem test_witness_writers : -- a command that writes neither, one that writes SR, one that writes PB
    (nextOf (serve (.cmd 0x1000000000) (withSr ackRec))).map (fun t => (t.sr, t.pb)) = some (some ackRec, []) ∧
    srOf (serve (.cmd 0x2100000021) (withSr ackRec)) = some { ackRec with ackn := some 0x21 } ∧
    pbOf (serve (.cmd 0x0400000000) (withSr ackRec)) 0 2 = some [0x40, 0x06] := by decide
theorem test_witness_retx : -- PARSE, SETRETX, an accessor and a refused command, on a record with counter 7
    (srOf (serve (.cmd 0x0200000006) { holding ackImg with sr := some { finRec with retx := 7 } })).map Record.retx =
      some 0 ∧
    (srOf (serve (.cmd 0x2000000003) (withSr { finRec with retx := 7 }))).map Record.retx = some 3 ∧
    (srOf (serve (.cmd 0x1200000000) (withSr { finRec with retx := 7 }))).map Record.retx = some 7 ∧
    (srOf (serve (.cmd 0x0000000000) (withSr { finRec with retx := 7 }))).map Record.retx = some 7 := by decide
theorem test_witness_step : -- a decoded word, a short segment, an idle step
    out (step { State.reset with host := [.present (encode (.cksum 0 0))] }) = some (.ok 0xFFFF) ∧
    out (step { State.reset with host := [.present (.seg [0x40])] }) = some .invalid ∧
    nextOf (step State.reset) = some State.reset := by decide
theorem test_witness_step_too_long (img : List Byte) (h : img.length = 65536) :
    decode (.seg img) = .error (.tooLong 65536) := by simp [decode, decodeSeg, minHdr, h]
theorem test_witness_host_write : nextOf (step { small [] with host := [.pbWrite 15 0xA5] }) =
      some { small [] with pb := [(15, 0xA5)] } ∧
    nextOf (step { small [] with host := [.pbWrite 16 0xA5] }) = none := by decide
theorem test_host_line_past_the_end : -- log entry 11: no wrap, the first byte past the end faults
    nextOf (step { State.reset with host := hostWrites 0xFFFF [0xA5, 0x5A] }) =
      some { State.reset with pb := [(0xFFFF, 0xA5)], host := [.pbWrite 0x10000 0x5A] } ∧
    nextOf (step { State.reset with pb := [(0xFFFF, 0xA5)], host := [.pbWrite 0x10000 0x5A] }) = none := by decide
theorem test_witness_step_keeps : ({ small [] with host := [.present (.seg ackImg)] } : State).wf = true ∧
    (nextOf (step { small [] with host := [.present (.seg ackImg)] })).map State.wf = some true := by decide
theorem test_witness_sees_host_write : (15 : Half).toNat < (small []).cfg.pbBytes ∧ (small []).pb.wf = true := by decide
theorem test_witness_record_invariant : ackRec.wf = true ∧
    (srOf (exec (.setack 9) (withSr finRec))).map Record.wf = some true := by decide
theorem test_witness_accessors : (withSr { datRec with retx := 9 }).sr = some { datRec with retx := 9 } ∧
    datRec.flags.getLsbD 6 = true ∧ datRec.ackn = some 8 ∧ finRec.flags.getLsbD 6 = false := by decide
theorem test_witness_after_reset : out (exec (.parse 0 6) (State.resetWith Config.standard [])) = some .invalid ∧
    out (serve (.cmd 0x2000000003) (State.resetWith Config.standard [])) = some .refused := by decide
theorem test_witness_instances :
    nextOf (stepAt 0 [{ small [] with host := [.pbWrite 15 0xA5] }, withSr ackRec]) =
      some [{ small [] with pb := [(15, 0xA5)] }, withSr ackRec] := by decide

end Sys2Proof.Tests
end

/-! ## The kinds of instruction, and how a command word comes to one -/

namespace Sys2Proof

/-- The kinds of instruction, by what they may write (10_state.md R12, 20_memory.md R35). -/
inductive Kind where
  /-- Writes neither SR nor PB: CKSUM, the accessors, RDHEXT and RDTPAY. -/
  | reader
  /-- Decodes a segment into SR: PARSE, BUILD and the variant rows. -/
  | decoder
  /-- Stores bytes in PB: SER, SERC and DESCRIBE. -/
  | storer
  /-- SETRETX with its operand. -/
  | retxSetter (n : Word)
  /-- SETACK with its operand. -/
  | acknSetter (a : Byte)

/-- The kind of an instruction. -/
def Instr.kind : Instr → Kind
  | .cksum _ _ | .getflags | .gethlen | .getseq | .getack | .getlen | .gettype | .getretx => .reader
  | .rdhext _ | .rdtpay _ => .reader
  | .parse _ _ | .build _ _ => .decoder
  | .ser _ | .serc _ | .describe _ => .storer
  | .setretx n => .retxSetter n
  | .setack a => .acknSetter a
  | .variantSyn _ | .variantNul _ | .variantEak _ | .variantRst _ | .variantClz _ => .decoder
  | .variantFin _ | .variantAck _ | .variantDat _ | .variantNone _ => .decoder

/-- The operation codes of each kind of command (30_encoding.md R61), and the operands of the two setters. -/
def Kind.OfWord (w : CmdWord) : Kind → Prop
  | .reader => cmdOp w ∉ [0x02, 0x03, 0x04, 0x05, 0x06, 0x20, 0x21]
  | .decoder => cmdOp w = 0x02 ∨ cmdOp w = 0x03
  | .storer => cmdOp w = 0x04 ∨ cmdOp w = 0x05 ∨ cmdOp w = 0x06
  | .retxSetter n => cmdOp w = 0x20 ∧ n = cmdArg w
  | .acknSetter a => cmdOp w = 0x21 ∧ a = cmdAckn w

/-- A command word decodes to an instruction of the kind of its operation code, or its code is reserved (R62). -/
theorem decode_cmd_cases (w : CmdWord) :
    (∃ i, decode (.cmd w) = .ok i ∧ Kind.OfWord w i.kind) ∨ decode (.cmd w) = .error (.reservedOp (cmdOp w)) := by
  rcases decodeCmd_cases w with
    ⟨op, hd⟩ | ⟨op, hd⟩ | ⟨op, hd⟩ | ⟨op, hd⟩ | ⟨op, hd⟩ | ⟨op, hd⟩ | ⟨op, hd⟩ | ⟨op, hd⟩ | ⟨op, hd⟩ |
    ⟨op, hd⟩ | ⟨op, hd⟩ | ⟨op, hd⟩ | ⟨op, hd⟩ | ⟨op, hd⟩ | ⟨op, hd⟩ | ⟨op, hd⟩ | ⟨op, hd⟩ | ⟨-, hd⟩
  on_goal 18 => exact .inr hd
  all_goals exact .inl ⟨_, hd, by simp [op, Instr.kind, Kind.OfWord]⟩

theorem minHdr_ne_zero : 0 ≠ minHdr := by decide

/-- A LEN condition tells only six bytes from other lengths. -/
theorem LenCond.holds_eq_zero (c : LenCond) {len : Nat} (h : len ≠ minHdr) : c.holds len = c.holds 0 := by
  cases c with
  | any => rfl
  | isMin | notMin => simp [LenCond.holds, bne, h, minHdr_ne_zero]

/-- The match/mask table and the precedence list select the same variant (30_encoding.md R55, 42_type_dispatcher.md
R111). -/
theorem selectRow_eq_dispatch (flags : Byte) (len : Nat) : selectRow flags len = dispatch flags len := by
  by_cases h : len = minHdr
  · subst h
    revert flags
    decide
  · have hrow (f : Byte) : selectRow f len = selectRow f 0 := by
      simp [selectRow, VariantRow.hits, LenCond.holds_eq_zero _ h]
    have hlist (f : Byte) : dispatch f len = dispatch f 0 := by simp [dispatch, h, minHdr_ne_zero]
    have htable : ∀ f : Byte, selectRow f 0 = dispatch f 0 := by decide
    rw [hrow, hlist, htable]

end Sys2Proof

namespace Sys2Proof.Machine

@[simp] theorem answerOk_eq_next (s t : State) (v : Word) : answerOk s v = .next t ↔ t = s.respond (.ok v) := by
  simp [answerOk, eq_comm]

@[simp] theorem answerRefused_eq_next (s t : State) : answerRefused s = .next t ↔ t = s.respond .refused := by
  simp [answerRefused, eq_comm]

@[simp] theorem answerInvalid_eq_next (s t : State) : answerInvalid s = .next t ↔ t = s.clearSr.respond .invalid := by
  simp [answerInvalid, eq_comm]

/-! ## A step, by the host's next action and how it decodes -/

theorem step_present {s : State} {e : Encoded} {rest : List HostAction} (h : s.host = .present e :: rest) :
    step s = serve e (s.taking rest) := by
  simp [step, runNext, h]

theorem step_idle {s : State} (h : s.host = []) : step s = .next (s.taking []) := by
  simp [step, runNext, h]

section Serve
variable {e : Encoded}

theorem serve_ok {i : Instr} (h : decode e = .ok i) (s : State) : serve e s = exec i s := by
  simp [serve, h]

theorem serve_reservedOp {op : Byte} (h : decode e = .error (.reservedOp op)) (s : State) :
    serve e s = answerRefused s := by
  simp [serve, h]

theorem serve_truncated {n : Nat} (h : decode e = .error (.truncated n)) (s : State) :
    serve e s = answerInvalid s := by
  simp [serve, h]

theorem serve_tooLong {n : Nat} (h : decode e = .error (.tooLong n)) (s : State) :
    serve e s = .fault .segmentTooLong := by
  simp [serve, h]

end Serve

/-! ## What an instruction makes of the state -/

/-- What an instruction of a kind makes of the state when it is not REFUSED. -/
def Effect (s t : State) : Kind → Prop
  | .reader => ∃ rsp, rsp.status = .ok ∧ t = s.respond rsp
  | .decoder => t = s.clearSr.respond .invalid ∨
      ∃ v img, img.length ≤ 65535 ∧ dispatch (imgFlags img) img.length = some v ∧
        shapeOk v (imgHlen img).toNat img.length = true ∧ t = (s.load (recordOf v img)).respond (.ok (valTag v))
  | .storer => ∃ a bs v, a + bs.length ≤ s.cfg.pbBytes ∧ t = (s.store a bs).respond (.ok v)
  | .retxSetter n => ∃ r, s.sr = some r ∧ t = (s.load { r with retx := n }).respond (.ok 0)
  | .acknSetter a => ∃ r, s.sr = some r ∧
      t = (s.load { r with flags := withAck r.flags, ackn := some a }).respond (.ok 0)

section Exec
variable {s t : State}

/-- A range-checked command with a next state: REFUSED, or its body led there. -/
theorem withRange_next {off n : Nat} {body : Result} (h : withRange s off n body = .next t) :
    t = s.respond .refused ∨ body = .next t := by
  rcases withRange_cases s off n body with ⟨-, e⟩ | ⟨-, e⟩ <;> rw [e] at h
  · exact .inl ((answerRefused_eq_next s t).1 h)
  · exact .inr h

/-- A command on the record with a next state: REFUSED, or its body led there. -/
theorem withRecord_next {body : Record → Result} (h : withRecord s body = .next t) :
    t = s.respond .refused ∨ ∃ r, s.sr = some r ∧ body r = .next t := by
  rcases withRecord_cases s body with ⟨-, e⟩ | ⟨r, hr, e⟩ <;> rw [e] at h
  · exact .inl ((answerRefused_eq_next s t).1 h)
  · exact .inr ⟨r, hr, h⟩

/-- An answered value is a reader's effect. -/
theorem reader_of_answerOk {v : Word} (h : answerOk s v = .next t) : Effect s t .reader :=
  ⟨.ok v, rfl, (answerOk_eq_next s t v).1 h⟩

/-- An accessor: REFUSED on an empty record, else a reader's effect. -/
theorem accessor_effect {field : Record → Word} (h : withRecord s (fun r => answerOk s (field r)) = .next t) :
    t = s.respond .refused ∨ Effect s t .reader :=
  (withRecord_next h).imp_right fun ⟨_, _, e⟩ => reader_of_answerOk e

/-- GETACK: absence is an answer too (41_segment_facade.md R95). -/
theorem execGetack_effect (h : execGetack s = .next t) : t = s.respond .refused ∨ Effect s t .reader := by
  refine (withRecord_next h).imp_right fun ⟨r, _, e⟩ => ?_
  split at e
  · exact reader_of_answerOk e
  · exact ⟨.okAbsent, rfl, by cases e; rfl⟩

/-- RDHEXT and RDTPAY: REFUSED on an empty record or past the region, else a reader's effect. -/
theorem readRegion_effect {region : Record → List Byte} {n : Record → Nat} {idx : Nat}
    (h : withRecord s (fun r => readRegion s (region r) (n r) idx) = .next t) :
    t = s.respond .refused ∨ Effect s t .reader := by
  rcases withRecord_next h with h | ⟨r, -, h⟩
  · exact .inl h
  · rcases readRegion_cases s (region r) (n r) idx with ⟨-, e⟩ | ⟨-, e⟩ <;> rw [e] at h
    · exact .inr (reader_of_answerOk h)
    · exact .inl ((answerRefused_eq_next s t).1 h)

/-- The decode of a range of PB (PARSE and BUILD), from the range check on. -/
theorem decodeRange_effect {checked : Bool} {off : Nat} {len : Half}
    (h : withRange s off len.toNat (decodeImage checked (s.pb.readRange off len.toNat) s) = .next t) :
    t = s.respond .refused ∨ Effect s t .decoder := by
  refine (withRange_next h).imp_right fun h => ?_
  have hlen : (s.pb.readRange off len.toNat).length ≤ 65535 := by rw [Memory.readRange_length]; omega
  rcases decodeImage_cases checked (s.pb.readRange off len.toNat) s with e | ⟨v, -, hd, hs, -, e⟩ <;> rw [e] at h
  · exact .inl ((answerInvalid_eq_next s t).1 h)
  · exact .inr ⟨v, _, hlen, hd, hs, (answerOk_eq_next _ t _).1 h⟩

/-- A variant row on a segment it selects. -/
theorem runVariant_effect {v : Variant} {img : List Byte} (h : runVariant v img s = .next t) :
    Effect s t .decoder := by
  rcases runVariant_cases v img s with ⟨-, e⟩ | ⟨hsel, e⟩ <;> rw [e] at h
  · cases h
  · obtain ⟨⟨-, hlen⟩, hrow⟩ := (imgSelects_iff (some v) img).1 hsel
    rw [selectRow_eq_dispatch] at hrow
    rcases decodeAs_cases true v img s with ⟨-, e⟩ | ⟨hs, -, e⟩ <;> rw [e] at h
    · exact .inl ((answerInvalid_eq_next s t).1 h)
    · exact .inr ⟨v, img, hlen, hrow, hs, (answerOk_eq_next _ t _).1 h⟩

/-- The row without a variant can only end INVALID (30_encoding.md R57). -/
theorem execVariantNone_effect {img : List Byte} (h : execVariantNone img s = .next t) : Effect s t .decoder := by
  unfold execVariantNone at h
  split at h
  · exact .inl ((answerInvalid_eq_next s t).1 h)
  · cases h

/-- SER, SERC and DESCRIBE: bytes of the record stored in a range that was checked to hold them. -/
theorem storeRange_effect {off : Nat} {n : Record → Nat} {bytes : Record → List Byte} {v : Record → Word}
    (hn : ∀ r, (bytes r).length = n r)
    (h : withRecord s (fun r => withRange s off (n r) (answerOk (s.store off (bytes r)) (v r))) = .next t) :
    t = s.respond .refused ∨ Effect s t .storer := by
  rcases withRecord_next h with h | ⟨r, -, h⟩
  · exact .inl h
  · rcases withRange_cases s off (n r) (answerOk (s.store off (bytes r)) (v r)) with ⟨-, e⟩ | ⟨hle, e⟩ <;> rw [e] at h
    · exact .inl ((answerRefused_eq_next s t).1 h)
    · exact .inr ⟨off, bytes r, v r, (hn r).symm ▸ hle, (answerOk_eq_next _ t _).1 h⟩

/-- Every instruction that gives a next state is REFUSED or has the effect of its kind. -/
theorem exec_effect {i : Instr} (h : exec i s = .next t) : t = s.respond .refused ∨ Effect s t i.kind := by
  cases i with
  | cksum off len => exact (withRange_next h).imp_right reader_of_answerOk
  | parse off len | build off len => exact decodeRange_effect h
  | ser off => exact storeRange_effect Record.image_length h
  | serc off => exact storeRange_effect Record.wire_length h
  | describe off => exact storeRange_effect (fun _ => rfl) h
  | getflags | gethlen | getseq | getlen | gettype | getretx => exact accessor_effect h
  | getack => exact execGetack_effect h
  | rdhext idx | rdtpay idx => exact readRegion_effect h
  | setretx n | setack a =>
    exact (withRecord_next h).imp_right fun ⟨r, hr, e⟩ => ⟨r, hr, (answerOk_eq_next _ t _).1 e⟩
  | variantSyn img | variantNul img | variantEak img | variantRst img | variantClz img | variantFin img
  | variantAck img | variantDat img => exact .inr (runVariant_effect h)
  | variantNone img => exact .inr (execVariantNone_effect h)

/-- What a command word does: it is REFUSED, or has the effect of a kind its operation code names. -/
theorem serve_cmd_effect {w : CmdWord} (h : serve (.cmd w) s = .next t) :
    t = s.respond .refused ∨ ∃ k, Kind.OfWord w k ∧ Effect s t k := by
  rcases decode_cmd_cases w with ⟨i, hd, hk⟩ | hd
  · rw [serve_ok hd] at h
    exact (exec_effect h).imp_right fun he => ⟨i.kind, hk, he⟩
  · rw [serve_reservedOp hd] at h
    exact .inl ((answerRefused_eq_next s t).1 h)

end Exec

/-! ## What every step keeps -/

/-- The lines of 10_state.md R21 as the rule gives them, and `Record.wf`; the bound 65535 is that of a 16-bit LEN. -/
theorem Record.rules_iff_wf (r : Record) :
    (6 ≤ r.hlen.toNat ∧ r.hlen.toNat ≤ r.len.toNat ∧ r.len.toNat ≤ 65535 ∧ r.hext.length = r.hlen.toNat - 6 ∧
      r.tpay.length = r.len.toNat - r.hlen.toNat ∧ some r.type = dispatch r.flags r.len.toNat ∧
      shapeOk r.type r.hlen.toNat r.len.toNat = true ∧ (r.ackn ≠ none ↔ r.flags.getLsbD 6 = true)) ↔
    r.wf = true := by
  have hlen : r.len.toNat ≤ 65535 := by omega
  have htype : some r.type = dispatch r.flags r.len.toNat ↔ dispatch r.flags r.len.toNat = some r.type := eq_comm
  have hack : (r.ackn ≠ none ↔ r.flags.getLsbD 6 = true) ↔ r.ackn.isSome = ackSet r.flags := by
    rw [ackSet, ← Option.isSome_iff_ne_none]
    exact Bool.eq_iff_iff.symm
  simp only [Record.wf_iff, hlen, htype, hack, true_and]

/-- The invariant of the machine, clause by clause. -/
theorem State.wf_iff (s : State) :
    s.wf = true ↔ s.cfg.wf = true ∧ (s.pb.wf = true ∧ s.pb.below s.cfg.pbBytes = true) ∧
      ∀ r, s.sr = some r → r.wf = true := by
  simp [State.wf, State.pbWf, and_assoc, Option.all_eq_true]

section Invariant
variable {s t : State}

/-- A new counter keeps 10_state.md R21. -/
theorem Record.wf_setRetx {r : Record} (n : Word) (h : r.wf = true) : ({ r with retx := n } : Record).wf = true := h

/-- SETACK keeps 10_state.md R21: the ACK bit and the number come together, and the variant stays. -/
theorem Record.wf_setAckn {r : Record} (a : Byte) (h : r.wf = true) :
    ({ r with flags := withAck r.flags, ackn := some a } : Record).wf = true := by
  rw [Record.wf_iff] at h ⊢
  obtain ⟨h6, hle, hext, htpay, htype, hshape, -⟩ := h
  exact ⟨h6, hle, hext, htpay, dispatch_withAck htype, hshape, by simp [ackSet, withAck, fAck]⟩

/-- No instruction writes the parameters. -/
theorem Effect.cfg_eq {k : Kind} (h : Effect s t k) : t.cfg = s.cfg := by
  cases k with
  | reader => obtain ⟨_, -, rfl⟩ := h; rfl
  | decoder => obtain rfl | ⟨_, _, -, -, -, rfl⟩ := h <;> rfl
  | storer => obtain ⟨_, _, _, -, rfl⟩ := h; rfl
  | retxSetter n | acknSetter a => obtain ⟨_, -, rfl⟩ := h; rfl

/-- Only the stores write PB. -/
theorem Effect.pb_eq {k : Kind} (h : Effect s t k) (hk : k ≠ .storer) : t.pb = s.pb := by
  cases k with
  | reader => obtain ⟨_, -, rfl⟩ := h; rfl
  | decoder => obtain rfl | ⟨_, _, -, -, -, rfl⟩ := h <;> rfl
  | storer => exact absurd rfl hk
  | retxSetter n | acknSetter a => obtain ⟨_, -, rfl⟩ := h; rfl

/-- The readers and the stores leave SR as it was. -/
theorem Effect.sr_eq {k : Kind} (h : Effect s t k) (hk : k = .reader ∨ k = .storer) : t.sr = s.sr := by
  rcases hk with rfl | rfl
  · obtain ⟨_, -, rfl⟩ := h; rfl
  · obtain ⟨_, _, _, -, rfl⟩ := h; rfl

/-- A store that ends in PB keeps its canonical form and its bounds (20_memory.md R38). -/
theorem State.store_pb_wf {a : Nat} {bs : List Byte} (hle : a + bs.length ≤ s.cfg.pbBytes)
    (h : s.pb.wf = true ∧ s.pb.below s.cfg.pbBytes = true) :
    (s.store a bs).pb.wf = true ∧ (s.store a bs).pb.below s.cfg.pbBytes = true :=
  ⟨Memory.wf_writeRange a bs h.1, Memory.below_writeRange a bs h.2 hle⟩

/-- Every instruction keeps the canonical form and the bounds of PB. -/
theorem Effect.pb_wf {k : Kind} (h : Effect s t k) (hs : s.pb.wf = true ∧ s.pb.below s.cfg.pbBytes = true) :
    t.pb.wf = true ∧ t.pb.below t.cfg.pbBytes = true := by
  by_cases hk : k = .storer
  · subst hk
    obtain ⟨a, bs, v, hle, rfl⟩ := h
    exact State.store_pb_wf hle hs
  · rw [h.pb_eq hk, h.cfg_eq]
    exact hs

/-- Every instruction keeps 10_state.md R21 of the record. -/
theorem Effect.record_wf {k : Kind} (h : Effect s t k) (hs : ∀ r, s.sr = some r → r.wf = true) :
    ∀ r, t.sr = some r → r.wf = true := by
  cases k with
  | reader => rwa [h.sr_eq (.inl rfl)]
  | storer => rwa [h.sr_eq (.inr rfl)]
  | decoder =>
    obtain rfl | ⟨v, img, hlen, hd, hshape, rfl⟩ := h
    · simp
    · rintro r ⟨⟩
      exact recordOf_wf hlen hd hshape
  | retxSetter n =>
    obtain ⟨r₀, hr₀, rfl⟩ := h
    rintro r ⟨⟩
    exact Record.wf_setRetx n (hs r₀ hr₀)
  | acknSetter a =>
    obtain ⟨r₀, hr₀, rfl⟩ := h
    rintro r ⟨⟩
    exact Record.wf_setAckn a (hs r₀ hr₀)

/-- Every instruction keeps 10_state.md R21 of the record, REFUSED included. -/
theorem exec_record_wf {i : Instr} (h : exec i s = .next t) (hs : ∀ r, s.sr = some r → r.wf = true) :
    ∀ r, t.sr = some r → r.wf = true := by
  rcases exec_effect h with rfl | he
  · exact hs
  · exact he.record_wf hs

/-- Every instruction keeps the invariant of the machine and the parameters. -/
theorem exec_wf {i : Instr} (h : exec i s = .next t) (hs : s.wf = true) : t.wf = true ∧ t.cfg = s.cfg := by
  rcases exec_effect h with rfl | he
  · exact ⟨hs, rfl⟩
  · obtain ⟨hcfg, hpb, hsr⟩ := (State.wf_iff s).1 hs
    exact ⟨(State.wf_iff t).2 ⟨he.cfg_eq ▸ hcfg, he.pb_wf hpb, he.record_wf hsr⟩, he.cfg_eq⟩

/-- An empty record meets every invariant of the record. -/
theorem State.clearSr_wf (hs : s.wf = true) : s.clearSr.wf = true := by
  obtain ⟨hcfg, hpb, -⟩ := (State.wf_iff s).1 hs
  exact (State.wf_iff _).2 ⟨hcfg, hpb, by simp⟩

/-- Whatever is presented, the block keeps the invariant of the machine and the parameters. -/
theorem serve_wf {e : Encoded} (h : serve e s = .next t) (hs : s.wf = true) : t.wf = true ∧ t.cfg = s.cfg := by
  rcases serve_cases e s with ⟨i, -, he⟩ | ⟨op, -, he⟩ | ⟨n, -, he⟩ | ⟨n, -, he⟩ <;> rw [he] at h
  · exact exec_wf h hs
  · rw [(answerRefused_eq_next s t).1 h]; exact ⟨hs, rfl⟩
  · rw [(answerInvalid_eq_next s t).1 h]; exact ⟨State.clearSr_wf (s := s) hs, rfl⟩
  · cases h

/-- A host write keeps the invariant of the machine and the parameters. -/
theorem hostWrite_wf {a : Nat} {b : Byte} (h : hostWrite a b s = .next t) (hs : s.wf = true) :
    t.wf = true ∧ t.cfg = s.cfg := by
  rcases hostWrite_cases a b s with ⟨hle, e⟩ | ⟨-, e⟩ <;> rw [e] at h <;> cases h
  obtain ⟨hcfg, hpb, hsr⟩ := (State.wf_iff s).1 hs
  exact ⟨(State.wf_iff _).2 ⟨hcfg, State.store_pb_wf hle hpb, hsr⟩, rfl⟩

end Invariant

/-! ## The statements of 10_state.md -/

/-- Settles O53: a step is idle, serves a presented form or makes a host write, and each keeps the invariant. -/
theorem stepKeepsTheInvariant : Obligations.StepKeepsTheInvariant := by
  intro s t hs h
  rcases step_cases s with ⟨-, e⟩ | ⟨enc, rest, -, e⟩ | ⟨a, b, rest, -, e⟩ <;> rw [e] at h
  · cases h; exact ⟨hs, rfl⟩
  · exact serve_wf (s := s.taking rest) h hs
  · exact hostWrite_wf (s := s.taking rest) h hs

/-- Settles O47: the operation code gives the kind of the command, and the kind what it may write. -/
theorem onlyNamedCommandsWrite : Obligations.OnlyNamedCommandsWrite := by
  intro w s t h
  change (cmdOp w ≠ 0x02 → cmdOp w ≠ 0x03 → cmdOp w ≠ 0x20 → cmdOp w ≠ 0x21 → t.sr = s.sr) ∧
    (cmdOp w ≠ 0x04 → cmdOp w ≠ 0x05 → cmdOp w ≠ 0x06 → t.pb = s.pb)
  rcases serve_cmd_effect h with rfl | ⟨k, hop, he⟩
  · simp
  cases k with
  | reader => exact ⟨fun _ _ _ _ => he.sr_eq (.inl rfl), fun _ _ _ => he.pb_eq (by simp)⟩
  | decoder => exact ⟨by rcases hop with hop | hop <;> simp [hop], fun _ _ _ => he.pb_eq (by simp)⟩
  | storer => exact ⟨fun _ _ _ _ => he.sr_eq (.inr rfl), by rcases hop with hop | hop | hop <;> simp [hop]⟩
  | retxSetter n | acknSetter a => exact ⟨by simp [hop.1], fun _ _ _ => he.pb_eq (by simp)⟩

/-- Settles O48: the operation code gives the kind of the command, and the kind what becomes of the counter. -/
theorem retransmissionCounterRule : Obligations.RetransmissionCounterRule := by
  intro w s t v r' h hr'
  change (t.rsp = some (.ok v) → cmdOp w = 0x02 ∨ cmdOp w = 0x03 → r'.retx = 0) ∧
    (t.rsp = some (.ok v) → cmdOp w = 0x20 → r'.retx = cmdArg w) ∧
    ((t.rsp = some .refused ∨ (cmdOp w ≠ 0x02 ∧ cmdOp w ≠ 0x03 ∧ cmdOp w ≠ 0x20)) →
      ∃ r, s.sr = some r ∧ r'.retx = r.retx)
  rcases serve_cmd_effect h with rfl | ⟨k, hop, he⟩
  · exact ⟨by simp, by simp, fun _ => ⟨r', hr', rfl⟩⟩
  cases k with
  | reader =>
    have hsr : s.sr = some r' := he.sr_eq (.inl rfl) ▸ hr'
    exact ⟨fun _ h => by rcases h with h | h <;> simp [Kind.OfWord, h] at hop,
      fun _ h => by simp [Kind.OfWord, h] at hop, fun _ => ⟨r', hsr, rfl⟩⟩
  | decoder =>
    obtain rfl | ⟨var, img, -, -, -, rfl⟩ := he <;> cases hr'
    rcases hop with hop | hop <;> simp [hop]
  | storer =>
    have hsr : s.sr = some r' := he.sr_eq (.inr rfl) ▸ hr'
    rcases hop with hop | hop | hop <;> simp [hop, hsr]
  | retxSetter n =>
    obtain ⟨r, -, rfl⟩ := he
    cases hr'
    simp [hop.1, hop.2]
  | acknSetter a =>
    obtain ⟨r, hr, rfl⟩ := he
    cases hr'
    simp [hop.1, hr]

/-- Settles O49: the lines of R21 are `Record.wf`, which every instruction keeps. -/
theorem recordInvariantAfterEveryCommand : Obligations.RecordInvariantAfterEveryCommand := by
  simp only [Obligations.RecordInvariantAfterEveryCommand, Record.rules_iff_wf]
  exact fun _ _ _ hs h => exec_record_wf h hs

/-- Settles O50: what a step takes from the host's list, and what the block does with it. -/
theorem stepRunsTheDecodedInstruction : Obligations.StepRunsTheDecodedInstruction := by
  intro s rest s'
  refine ⟨fun e i hh hd => ?_, fun e op hh hd => ?_, fun e n hh hd => ?_, fun e n hh hd => ?_, fun hh => ?_,
    fun nbits w => rfl⟩
  · rw [step_present hh, serve_ok hd]; rfl
  · rw [step_present hh, serve_reservedOp hd]; rfl
  · rw [step_present hh, serve_truncated hd]; rfl
  · rw [step_present hh, serve_tooLong hd]
  · rw [step_idle hh, State.taking, hh]

/-- Settles O54: reset is `State.resetWith` of the default parameter and a PB that lists nothing. -/
theorem resetState : Obligations.ResetState :=
  ⟨fun _ _ => ⟨rfl, rfl, rfl, rfl, rfl, rfl⟩, ⟨Config.standard, [], rfl⟩, by decide⟩

end Sys2Proof.Machine

/-! ## A host write of PB, and steps in a row -/

namespace Sys2Proof.Machine

section HostWrite
variable {s : State} {a : Nat} {b : Byte} {rest : List HostAction}

theorem step_pbWrite (h : s.host = .pbWrite a b :: rest) : step s = hostWrite a b (s.taking rest) := by
  simp [step, runNext, h]

/-- A step that takes a host write to an address of PB stores that byte. -/
theorem step_pbWrite_in (h : s.host = .pbWrite a b :: rest) (ha : a < s.cfg.pbBytes) :
    step s = .next ((s.taking rest).store a [b]) := by
  rw [step_pbWrite h]
  rcases hostWrite_cases a b (s.taking rest) with ⟨-, e⟩ | ⟨hlt, -⟩
  · exact e
  · rw [State.taking_cfg] at hlt; omega

/-- A step that takes a host write to any other address faults (log entry 11). -/
theorem step_pbWrite_out (h : s.host = .pbWrite a b :: rest) (ha : s.cfg.pbBytes ≤ a) :
    step s = .fault .hostOutsidePb := by
  rw [step_pbWrite h]
  rcases hostWrite_cases a b (s.taking rest) with ⟨hle, -⟩ | ⟨-, e⟩
  · rw [State.taking_cfg] at hle; omega
  · exact e

end HostWrite

/-- Storing one byte is one write. -/
theorem Memory.writeRange_single (m : Memory) (a : Nat) (b : Byte) : m.writeRange a [b] = m.write a b := rfl

/-- A range of one byte holds what a read of its address gives. -/
theorem Memory.readRange_one (m : Memory) (a : Nat) : m.readRange a 1 = [m.read a] := rfl

/-- A run of two steps that both have a next state. -/
theorem run_two_of_steps {s t u : State} (hst : step s = .next t) (htu : step t = .next u) :
    Host.Core.run Sys2Proof.core 2 s = .next u := by
  simp only [Host.Core.run, core, hst, htu]

/-! ## CKSUM, down to one byte -/

/-- CKSUM of a range of PB (40_checksum_engine.md R79). -/
theorem exec_cksum_in {s : State} {off len : Half} (h : off.toNat + len.toNat ≤ s.cfg.pbBytes) :
    exec (.cksum off len) s = answerOk s (valHalf (cksum (s.pb.readRange off.toNat len.toNat))) :=
  withRange_in h _

/-- A step that takes the encoding of a CKSUM command executes it. -/
theorem step_present_cksum {s : State} {off len : Half} {rest : List HostAction}
    (h : s.host = .present (encode (.cksum off len)) :: rest) :
    step s = exec (.cksum off len) (s.taking rest) := by
  rw [step_present h, serve_ok (Laws.Roundtrip.cksum off len rfl)]

/-- A sum of sixteen bits has no carry to fold in (40_checksum_engine.md R72). -/
theorem fold_of_le {n : Nat} (h : n ≤ 0xFFFF) : fold n = n := by
  cases n with
  | zero => rfl
  | succ n => rw [fold, foldLoop, if_neg (by omega)]

/-- The checksum of one byte: it is the high half of the only word summed (40_checksum_engine.md R71). -/
theorem valHalf_cksum_single (b : Byte) : valHalf (cksum [b]) = (0xFFFF : Word) - (b.setWidth 32 <<< 8) := by
  have hb : b.toNat < 256 := b.isLt
  have hck : (cksum [b]).toNat = 0xFFFF - b.toNat * 256 := by
    rw [cksum_toNat, wsum_single, Nat.shiftLeft_eq, fold_of_le (by omega)]
  apply BitVec.eq_of_toNat_eq
  simp only [valHalf, BitVec.toNat_setWidth, hck, BitVec.toNat_sub, BitVec.toNat_shiftLeft, Nat.shiftLeft_eq,
    BitVec.ofNat_eq_ofNat, BitVec.toNat_ofNat]
  omega

/-- A step that takes CKSUM of the byte at an address of PB answers the checksum of what a read gives there. -/
theorem step_cksum_one {s : State} {a : Half} {rest : List HostAction}
    (h : s.host = .present (encode (.cksum a 1)) :: rest) (ha : a.toNat < s.cfg.pbBytes) :
    step s = answerOk (s.taking rest) ((0xFFFF : Word) - ((s.pb.read a.toNat).setWidth 32 <<< 8)) := by
  have hin : a.toNat + (1 : Half).toNat ≤ (s.taking rest).cfg.pbBytes := ha
  have hone : (1 : Half).toNat = 1 := rfl
  rw [step_present_cksum h, exec_cksum_in hin, hone, Memory.readRange_one, valHalf_cksum_single, State.taking_pb]

/-! ## The stores of a record's bytes -/

/-- SER, SERC and DESCRIBE have one form; with the range in PB it answers OK and writes inside the range only, in
every state (20_memory.md R35). -/
theorem storeRange_in {s : State} {r : Record} {off : Nat} {n : Record → Nat} {bytes : Record → List Byte}
    {v : Record → Word} (hr : s.sr = some r) (hn : (bytes r).length = n r) (hle : off + n r ≤ s.cfg.pbBytes) :
    ∃ m, withRecord s (fun r => withRange s off (n r) (answerOk (s.store off (bytes r)) (v r))) =
        .next { s with pb := m, rsp := some (.ok (v r)), served := s.served + 1 } ∧
      ∀ a, a < off ∨ off + n r ≤ a → m.read a = s.pb.read a := by
  refine ⟨s.pb.writeRange off (bytes r), ?_, fun a ha => ?_⟩
  · rw [withRecord_some hr, withRange_in hle]
    rfl
  · exact Memory.read_writeRange_outside s.pb off a (bytes r) (hn ▸ ha)

/-! ## The statements of 20_memory.md -/

/-- Settles O52: the first step stores the byte, the second answers the checksum of what a read of it gives. -/
theorem commandSeesTheHostWriteBeforeIt : Obligations.CommandSeesTheHostWriteBeforeIt := by
  intro s a b ha hwf
  have hread : (s.pb.write a.toNat b).read a.toNat = b := Memory.read_write_self hwf a.toNat b
  refine ⟨_, run_two_of_steps (step_pbWrite_in rfl ha) (step_cksum_one rfl ha), ?_, rfl⟩
  simp only [State.respond_rsp, State.store_pb, Memory.writeRange_single, State.taking_pb, hread]

/-- Settles O32: each of the three stores is `storeRange_in` on its bytes and their length. -/
theorem storesStayInTheirRange : Obligations.StoresStayInTheirRange := by
  intro s off r hr
  refine ⟨fun hle => ⟨?ser, ?serc⟩, fun hle => ?describe⟩
  case ser => exact storeRange_in hr r.image_length hle
  case serc => exact storeRange_in hr r.wire_length hle
  case describe => exact storeRange_in hr rfl hle

/-- Settles O51: below PB_BYTES the step is one write of a canonical PB, from there on it faults. -/
theorem hostWriteChangesOneByte : Obligations.HostWriteChangesOneByte := by
  intro s a b rest hhost
  refine ⟨fun ha hwf => ⟨s.pb.write a b, ?_, fun x => Memory.read_write hwf a x b⟩, step_pbWrite_out hhost⟩
  rw [step_pbWrite_in hhost ha]
  rfl

end Sys2Proof.Machine

/-! ## The encodings: command words -/

namespace Sys2Proof

/-- Every well-formed instruction is read back from its encoding (30_encoding.md R45, R55, R60, R61). -/
theorem decode_encode (i : Instr) (h : i.wf = true) : decode (encode i) = .ok i := by
  cases i with
  | cksum off len => exact Laws.Roundtrip.cksum off len h
  | parse off len => exact Laws.Roundtrip.parse off len h
  | build off len => exact Laws.Roundtrip.build off len h
  | ser off => exact Laws.Roundtrip.ser off h
  | serc off => exact Laws.Roundtrip.serc off h
  | describe off => exact Laws.Roundtrip.describe off h
  | getflags => exact Laws.Roundtrip.getflags h
  | gethlen => exact Laws.Roundtrip.gethlen h
  | getseq => exact Laws.Roundtrip.getseq h
  | getack => exact Laws.Roundtrip.getack h
  | getlen => exact Laws.Roundtrip.getlen h
  | gettype => exact Laws.Roundtrip.gettype h
  | getretx => exact Laws.Roundtrip.getretx h
  | rdhext idx => exact Laws.Roundtrip.rdhext idx h
  | rdtpay idx => exact Laws.Roundtrip.rdtpay idx h
  | setretx n => exact Laws.Roundtrip.setretx n h
  | setack ackn => exact Laws.Roundtrip.setack ackn h
  | variantSyn img => exact Laws.Roundtrip.variantSyn img h
  | variantNul img => exact Laws.Roundtrip.variantNul img h
  | variantEak img => exact Laws.Roundtrip.variantEak img h
  | variantRst img => exact Laws.Roundtrip.variantRst img h
  | variantClz img => exact Laws.Roundtrip.variantClz img h
  | variantFin img => exact Laws.Roundtrip.variantFin img h
  | variantAck img => exact Laws.Roundtrip.variantAck img h
  | variantDat img => exact Laws.Roundtrip.variantDat img h
  | variantNone img => exact Laws.Roundtrip.variantNone img h

/-- What a command word decodes to is well-formed and encodes to a word of the same operation code. -/
theorem decode_cmd_ok {w : CmdWord} {i : Instr} (h : decode (.cmd w) = .ok i) :
    i.wf = true ∧ ∃ w', encode i = .cmd w' ∧ cmdOp w' = cmdOp w := by
  rcases decodeCmd_cases w with
    ⟨op, hd⟩ | ⟨op, hd⟩ | ⟨op, hd⟩ | ⟨op, hd⟩ | ⟨op, hd⟩ | ⟨op, hd⟩ | ⟨op, hd⟩ | ⟨op, hd⟩ | ⟨op, hd⟩ |
    ⟨op, hd⟩ | ⟨op, hd⟩ | ⟨op, hd⟩ | ⟨op, hd⟩ | ⟨op, hd⟩ | ⟨op, hd⟩ | ⟨op, hd⟩ | ⟨op, hd⟩ | ⟨-, hd⟩
  all_goals cases hd.symm.trans h
  all_goals exact ⟨rfl, _, rfl, by rw [cmdOp_cmdWord, op]⟩

/-- What a segment decodes to is the instruction of the row that selects it. -/
theorem decode_seg_ok {img : List Byte} {i : Instr} (h : decode (.seg img) = .ok i) :
    ∃ v, imgSelects v img = true ∧ i = variantInstr v img := by
  simp only [decode, decodeSeg] at h
  split at h
  · cases h
  split at h
  · cases h
  cases h
  exact ⟨_, (imgSelects_iff _ _).2 ⟨by omega, rfl⟩, rfl⟩

/-- Settles O1: the round trip of each instruction, and what the decoder reads from a word and from a segment. -/
theorem decodeAndEncodeAgree : Obligations.DecodeAndEncodeAgree := by
  refine ⟨decode_encode, fun e i h => ?_⟩
  cases e with
  | cmd w =>
    obtain ⟨hwf, hword⟩ := decode_cmd_ok h
    exact ⟨hwf, by simp, fun _ hw => by cases hw; exact hword⟩
  | seg img =>
    obtain ⟨v, hsel, rfl⟩ := decode_seg_ok h
    exact ⟨(variantInstr_wf v img).trans hsel, fun _ himg => himg ▸ encode_variantInstr v img, by simp⟩

/-- Settles O3: the operation code is one of those the decoder asks for, with its operands, or it is none of them. -/
theorem operationCodeSelectsCommand : Obligations.OperationCodeSelectsCommand := by
  intro w
  have hop : w.extractLsb' 32 8 = cmdOp w := rfl
  have hA : w.extractLsb' 16 16 = cmdA w := rfl
  have hB : w.extractLsb' 0 16 = cmdB w := rfl
  have hArg : w.extractLsb' 0 32 = cmdArg w := rfl
  have hAckn : w.extractLsb' 0 8 = cmdAckn w := rfl
  simp only [hop, hA, hB, hArg, hAckn, decode]
  rcases decodeCmd_cases w with
    ⟨op, hd⟩ | ⟨op, hd⟩ | ⟨op, hd⟩ | ⟨op, hd⟩ | ⟨op, hd⟩ | ⟨op, hd⟩ | ⟨op, hd⟩ | ⟨op, hd⟩ | ⟨op, hd⟩ |
    ⟨op, hd⟩ | ⟨op, hd⟩ | ⟨op, hd⟩ | ⟨op, hd⟩ | ⟨op, hd⟩ | ⟨op, hd⟩ | ⟨op, hd⟩ | ⟨op, hd⟩ | ⟨op, hd⟩
  on_goal 18 => simpa [hd] using op
  all_goals simp [op, hd]

/-- The operation codes of 30_encoding.md R61. -/
def commandOps : List Byte :=
  [0x01, 0x02, 0x03, 0x04, 0x05, 0x06, 0x10, 0x11, 0x12, 0x13, 0x14, 0x15, 0x16, 0x17, 0x18, 0x20, 0x21]

/-- A command word decodes to an instruction when R61 lists its operation code, and else to the error that names it. -/
theorem decode_cmd_by_op (w : CmdWord) :
    (cmdOp w ∈ commandOps ∧ ∃ i, decode (.cmd w) = .ok i) ∨
      (cmdOp w ∉ commandOps ∧ decode (.cmd w) = .error (.reservedOp (cmdOp w))) := by
  rcases decodeCmd_cases w with
    ⟨op, hd⟩ | ⟨op, hd⟩ | ⟨op, hd⟩ | ⟨op, hd⟩ | ⟨op, hd⟩ | ⟨op, hd⟩ | ⟨op, hd⟩ | ⟨op, hd⟩ | ⟨op, hd⟩ |
    ⟨op, hd⟩ | ⟨op, hd⟩ | ⟨op, hd⟩ | ⟨op, hd⟩ | ⟨op, hd⟩ | ⟨op, hd⟩ | ⟨op, hd⟩ | ⟨op, hd⟩ | ⟨op, hd⟩
  on_goal 18 => exact .inr ⟨op, hd⟩
  all_goals exact .inl ⟨by rw [op]; decide, _, hd⟩

/-- The operation codes that R61 does not list are those R62 reserves. -/
theorem not_mem_commandOps_iff (op : Byte) :
    op ∉ commandOps ↔
      (op.toNat = 0x00 ∨ (0x07 ≤ op.toNat ∧ op.toNat ≤ 0x0F) ∨ (0x19 ≤ op.toNat ∧ op.toNat ≤ 0x1F) ∨
        (0x22 ≤ op.toNat ∧ op.toNat ≤ 0xFF)) := by
  revert op
  decide

/-- A command word decodes to nothing exactly when R61 does not list its operation code. -/
theorem decode_cmd_ne_ok_iff (w : CmdWord) : (∀ i, decode (.cmd w) ≠ .ok i) ↔ cmdOp w ∉ commandOps := by
  rcases decode_cmd_by_op w with ⟨hop, i, hd⟩ | ⟨hop, hd⟩ <;> simp [hop, hd]

/-- A command word whose operation code R61 does not list decodes to the error that names the code. -/
theorem decode_cmd_reserved {w : CmdWord} (h : cmdOp w ∉ commandOps) :
    decode (.cmd w) = .error (.reservedOp (cmdOp w)) := by
  rcases decode_cmd_by_op w with ⟨hop, -⟩ | ⟨-, hd⟩
  · exact absurd hop h
  · exact hd

end Sys2Proof

namespace Sys2Proof.Machine

/-- Settles O4: the codes that R62 reserves are those without a command, and the port refuses them. -/
theorem reservedOperationIsRefused : Obligations.ReservedOperationIsRefused := by
  intro w
  refine ⟨(decode_cmd_ne_ok_iff w).trans (not_mem_commandOps_iff _), fun hop s rest hhost => ?_⟩
  have hreserved : cmdOp w ∉ commandOps := (not_mem_commandOps_iff _).2 hop
  rw [step_present hhost, serve_reservedOp (decode_cmd_reserved hreserved)]
  rfl

end Sys2Proof.Machine

/-! ## The encodings: the flags byte -/

namespace Sys2Proof

/-- The table tells only six bytes from other lengths. -/
theorem selectRow_eq_zero (f : Byte) {len : Nat} (h : len ≠ minHdr) : selectRow f len = selectRow f 0 := by
  simp only [selectRow, VariantRow.hits, LenCond.holds_eq_zero _ h]

/-- The order of the rows does not matter: a row that matches is the one selected (30_encoding.md R55). -/
theorem selectRow_of_hits {r : VariantRow} (hr : r ∈ variantRows) {f : Byte} {len : Nat} (h : r.hits f len = true) :
    selectRow f len = r.variant := by
  have htable : ∀ n ∈ [minHdr, 0], ∀ r ∈ variantRows, ∀ f : Byte, r.hits f n = true → selectRow f n = r.variant := by
    decide
  by_cases hlen : len = minHdr
  · subst hlen
    exact htable _ (by simp) r hr f h
  · rw [selectRow_eq_zero f hlen]
    refine htable 0 (by simp) r hr f ?_
    rwa [VariantRow.hits, ← LenCond.holds_eq_zero _ hlen]

/-- A row of the table that matches gives the dispatcher's variant. -/
theorem dispatch_of_hits (r : VariantRow) (hr : r ∈ variantRows) {f : Byte} {len : Nat} (hf : f &&& r.mask = r.pattern)
    (hlen : r.len.holds len = true) : dispatch f len = r.variant := by
  rw [← selectRow_eq_dispatch]
  exact selectRow_of_hits hr (by simp [VariantRow.hits, hf, hlen])

/-- Flipping a flag does not change a test of the others. -/
theorem hasFlag_xor {f flag mask : Byte} (h : flag &&& mask = 0) : hasFlag (f ^^^ flag) mask = hasFlag f mask := by
  have : (f ^^^ flag) &&& mask = (f &&& mask) ^^^ (flag &&& mask) := by
    ext i; simp [Bool.and_xor_distrib_right]
  simp [hasFlag, this, h]

/-- CHK takes no part in the choice of the variant (30_encoding.md R55). -/
theorem dispatch_xor_fChk (f : Byte) (len : Nat) : dispatch (f ^^^ fChk) len = dispatch f len := by
  have hother : ∀ mask ∈ [fSyn, fNul, fEak, fRst, fClz, fFin, fAck], hasFlag (f ^^^ fChk) mask = hasFlag f mask :=
    fun mask hm => hasFlag_xor (by revert mask; decide)
  simp only [List.forall_mem_cons] at hother
  simp only [dispatch, hother]

/-- Settles O5: the rows that match, their masks on every flags byte, and CHK. -/
theorem variantRowsPartitionTheFlagsByte : Obligations.VariantRowsPartitionTheFlagsByte := by
  intro f len
  refine ⟨fun h => ?syn, fun h => ?nul, fun h => ?eak, fun h => ?rst, fun h => ?clz, fun h => ?fin, fun h hl => ?ack,
    fun h hl => ?dat, fun h => ?none, ?partition, dispatch_xor_fChk f len, selectRow_eq_dispatch f len⟩
  case syn => exact dispatch_of_hits ⟨some .syn, 0x80, 0x80, .any⟩ (by decide) h rfl
  case nul => exact dispatch_of_hits ⟨some .nul, 0x88, 0x08, .any⟩ (by decide) h rfl
  case eak => exact dispatch_of_hits ⟨some .eak, 0xA8, 0x20, .any⟩ (by decide) h rfl
  case rst => exact dispatch_of_hits ⟨some .rst, 0xB8, 0x10, .any⟩ (by decide) h rfl
  case clz => exact dispatch_of_hits ⟨some .clz, 0xB9, 0x01, .any⟩ (by decide) h rfl
  case fin => exact dispatch_of_hits ⟨some .fin, 0xBB, 0x02, .any⟩ (by decide) h rfl
  case ack => exact dispatch_of_hits ⟨some .ack, 0xFB, 0x40, .isMin⟩ (by decide) h (by simpa [LenCond.holds, minHdr] using hl)
  case dat => exact dispatch_of_hits ⟨some .dat, 0xFB, 0x40, .notMin⟩ (by decide) h (by simpa [LenCond.holds, minHdr] using hl)
  case none => exact dispatch_of_hits ⟨none, 0xFB, 0x00, .any⟩ (by decide) h rfl
  case partition =>
    revert f
    decide

/-- The dispatcher selects nothing exactly for the flags bytes 0x00 and 0x04 (30_encoding.md R57). -/
theorem dispatch_eq_none_iff (f : Byte) (len : Nat) : dispatch f len = none ↔ f = 0x00 ∨ f = 0x04 := by
  have htable : ∀ n ∈ [minHdr, 0], ∀ f : Byte, selectRow f n = none ↔ f = 0x00 ∨ f = 0x04 := by decide
  rw [← selectRow_eq_dispatch]
  by_cases hlen : len = minHdr
  · exact htable len (by simp [hlen]) f
  · rw [selectRow_eq_zero f hlen]
    exact htable 0 (by simp) f

end Sys2Proof

/-! ## The encodings: segments that are invalid -/

namespace Sys2Proof.Machine

/-- An image is INVALID when no variant is selected whose shape it has (42_type_dispatcher.md R113). -/
theorem decodeImage_invalid {checked : Bool} {img : List Byte}
    (h : ∀ t, minHdr ≤ img.length → dispatch (imgFlags img) img.length = some t →
      shapeOk t (imgHlen img).toNat img.length = false) (s : State) :
    decodeImage checked img s = answerInvalid s := by
  rcases decodeImage_cases checked img s with e | ⟨t, hmin, ht, hshape, -, -⟩
  · exact e
  · exact absurd hshape (by simp [h t hmin ht])

/-- PARSE and BUILD of a range of PB answer INVALID when its first two bytes and its length give no variant whose shape
the segment has, whatever its other bytes are. -/
theorem exec_parse_build_invalid {s : State} {off len : Half} (hin : off.toNat + len.toNat ≤ s.cfg.pbBytes)
    (h : ∀ t, 6 ≤ len.toNat → dispatch (s.pb.read off.toNat) len.toNat = some t →
      shapeOk t (s.pb.read (off.toNat + 1)).toNat len.toNat = false) :
    exec (.parse off len) s = answerInvalid s ∧ exec (.build off len) s = answerInvalid s := by
  have himg (checked : Bool) : decodeImage checked (s.pb.readRange off.toNat len.toNat) s = answerInvalid s := by
    refine decodeImage_invalid (fun t hmin ht => ?_) s
    rw [Memory.readRange_length] at hmin ht ⊢
    have hmin : 6 ≤ len.toNat := hmin
    rw [imgFlags, Memory.readRange_getD _ _ _ _ (by omega)] at ht
    rw [imgHlen, Memory.readRange_getD _ _ _ _ (by omega)]
    exact h t hmin ht
  exact ⟨(withRange_in hin _).trans (himg true), (withRange_in hin _).trans (himg false)⟩

/-- Settles O8: with one of these two flags bytes no variant is selected at any length. -/
theorem flagsWithoutVariantAreInvalid : Obligations.FlagsWithoutVariantAreInvalid := by
  refine ⟨dispatch_eq_none_iff, fun s off len hin hf => exec_parse_build_invalid hin fun t _ ht => ?_⟩
  rw [(dispatch_eq_none_iff _ _).2 hf] at ht
  cases ht

/-- The variants without a payload need a header and a segment of six bytes (42_type_dispatcher.md R112). -/
theorem shapeOk_noPayload {t : Variant} {hlen len : Nat} (ht : t.noPayload = true) (h : shapeOk t hlen len = true) :
    hlen = 6 ∧ len = 6 := by
  obtain ⟨hmin, hle⟩ := shapeOk_bounds h
  rw [shapeOk, if_neg (by rw [minHdr]; omega), if_neg (by omega), if_pos ht] at h
  simpa [minHdr] using h

/-- Settles O9: each of these lengths fails the length test or the shape test of the selected variant. -/
theorem illegalLengthsAreInvalid : Obligations.IllegalLengthsAreInvalid := by
  intro s off len hin f h n hbad
  refine exec_parse_build_invalid hin fun t hmin ht => Bool.eq_false_iff.2 fun hshape => ?_
  obtain ⟨h6, hle⟩ := shapeOk_bounds hshape
  rcases hbad with hn | hh | hlt | ⟨hvariant, hnot⟩
  · exact absurd hmin (Nat.not_le.2 hn)
  · exact absurd h6 (Nat.not_le.2 hh)
  · exact absurd hle (Nat.not_le.2 hlt)
  · have hpay : t.noPayload = true := by
      rcases hvariant with e | e | e | e | e <;> cases e.symm.trans ht <;> rfl
    exact hnot (shapeOk_noPayload hpay hshape)

/-- Settles O28: such an image selects the row without a variant, which can only end INVALID. -/
theorem presentedSegmentWithoutVariant : Obligations.PresentedSegmentWithoutVariant := by
  intro s img hmin hmax hf
  have hrow : selectRow (img.getD 0 0) img.length = none :=
    (selectRow_eq_dispatch _ _).trans ((dispatch_eq_none_iff _ _).2 hf)
  have hsel : imgSelects none img = true := (imgSelects_iff none img).2 ⟨⟨hmin, hmax⟩, hrow⟩
  exact ⟨decodeSeg_of_selects hsel, if_pos hsel⟩

/-- Settles O2: the decoder evaluates each of these words and segments. -/
theorem wordsOfTheSpecDecode : Obligations.WordsOfTheSpecDecode :=
  ⟨rfl, rfl, rfl, rfl, rfl, rfl, rfl, rfl, rfl⟩

/-! ## The encodings: the response word -/

section ResponseWord
variable (k : Nat)

/-- `RSP[33:32]` is the code of the status (30_encoding.md R63). -/
theorem Response.word_status (r : Response) : (r.word k).extractLsb' 32 2 = r.status.code :=
  BitVec.extractLsb'_append_eq_left

/-- `VAL[31:8]` of a GETACK answer that reports absence (30_encoding.md R64). -/
theorem Response.word_okAbsent_upper : (Response.okAbsent.word k).extractLsb' 8 24 = 0 := by
  rw [Response.word, BitVec.extractLsb'_append_eq_of_add_le (by decide), Response.val]
  ext i hi
  simp [BitVec.getLsbD_of_ge]

end ResponseWord

theorem Status.code_ne_three (st : Status) : st.code ≠ 3 := by
  cases st <;> decide

/-- Settles O10: the upper two bits are the status code, the lower 32 are VAL. -/
theorem responseWordLayout : Obligations.ResponseWordLayout := fun k r _ =>
  ⟨rfl, ⟨Response.word_status k .okAbsent, Response.word_okAbsent_upper k⟩, Response.word_status k .invalid,
    Response.word_status k .refused, fun h => Status.code_ne_three r.status ((Response.word_status k r).symm.trans h)⟩

end Sys2Proof.Machine

/-! ## The word sum -/

namespace Sys2Proof.Machine

/-- The big-endian words of a byte list in order, the missing byte of an odd last word being zero
(40_checksum_engine.md R71). -/
def wordsOf (b : List Byte) : List Nat :=
  (List.range ((b.length + 1) / 2)).map fun i => (b.getD (2 * i) 0).toNat * 256 + (b.getD (2 * i + 1) 0).toNat

/-- The words after the first are those of the bytes after the first two. -/
theorem wordsOf_cons_cons (hi lo : Byte) (bs : List Byte) : wordsOf (hi :: lo :: bs) = be16 hi lo :: wordsOf bs := by
  have hlen : ((hi :: lo :: bs).length + 1) / 2 = (bs.length + 1) / 2 + 1 := by
    simp only [List.length_cons]; omega
  rw [wordsOf, hlen, List.range_succ_eq_map, List.map_cons, List.map_map, be16_eq]
  rfl

/-- The word sum is the sum of the words. -/
theorem wsum_eq_sum_wordsOf (b : List Byte) : wsum b = (wordsOf b).sum := by
  induction b using wsum.induct with
  | case1 => rfl
  | case2 b => simp [wordsOf, Nat.shiftLeft_eq]
  | case3 hi lo bs ih => rw [wsum_cons_cons, wordsOf_cons_cons, List.sum_cons, ih]

/-- A word has sixteen bits. -/
theorem le_of_mem_wordsOf {b : List Byte} {w : Nat} (h : w ∈ wordsOf b) : w ≤ 0xFFFF := by
  obtain ⟨i, -, rfl⟩ := List.mem_map.1 h
  have := (b.getD (2 * i) 0).isLt
  have := (b.getD (2 * i + 1) 0).isLt
  omega

/-- The words of a range of PB begin at its offset, whatever the parity of that is (20_memory.md R34). -/
theorem wsum_readRange (m : Memory) (off len : Nat) :
    wsum (m.readRange off len) =
      ((List.range (len / 2)).map fun i =>
        (m.read (off + 2 * i)).toNat * 256 + (m.read (off + 2 * i + 1)).toNat).sum +
      (if len % 2 = 1 then (m.read (off + len - 1)).toNat * 256 else 0) := by
  induction len using Nat.twoStepInduction generalizing off with
  | zero => rfl
  | one => simp [Memory.readRange_one, Nat.shiftLeft_eq]
  | more n ih _ =>
    have hwords : (n + 2) / 2 = n / 2 + 1 := by omega
    have hlast : off + 1 + 1 + n - 1 = off + (n + 2) - 1 := by omega
    have haddr (i : Nat) : off + 1 + 1 + 2 * i = off + 2 * (i + 1) := by omega
    simp only [Memory.readRange, wsum_cons_cons, be16_eq, ih, hwords, hlast, Nat.add_mod_right, haddr,
      List.range_succ_eq_map, List.map_cons, List.map_map, List.sum_cons]
    exact (Nat.add_assoc _ _ _).symm

/-- Settles O11: both sums follow the recursion of `wsum`, two bytes at a time. -/
theorem wordSumPairsFromTheStart : Obligations.WordSumPairsFromTheStart :=
  ⟨wsum_eq_sum_wordsOf, wsum_readRange⟩

/-- Each word adds at most 0xFFFF (40_checksum_engine.md R75). -/
theorem wsum_le (b : List Byte) : wsum b ≤ 0xFFFF * ((b.length + 1) / 2) := by
  induction b using wsum.induct with
  | case1 => simp
  | case2 b =>
    have := b.isLt
    simp only [wsum_single, Nat.shiftLeft_eq, List.length_singleton]
    omega
  | case3 hi lo bs ih =>
    have := be16_lt hi lo
    simp only [wsum_cons_cons, List.length_cons]
    omega

theorem byte_toNat_eq_zero (b : Byte) : b.toNat = 0 ↔ b = 0 := by
  rw [BitVec.toNat_eq]
  rfl

/-- The word sum is zero only when every byte is (40_checksum_engine.md R73). -/
theorem wsum_eq_zero_iff (b : List Byte) : wsum b = 0 ↔ ∀ x ∈ b, x = 0 := by
  induction b using wsum.induct with
  | case1 => simp
  | case2 b => simp [Nat.shiftLeft_eq, byte_toNat_eq_zero]
  | case3 hi lo bs ih => simp [be16_eq, ih, byte_toNat_eq_zero, and_assoc]

/-! ## The fold -/

/-- The three facts of 40_checksum_engine.md R73 that determine a fold. -/
theorem fold_eq_of {s r : Nat} (hle : r ≤ 0xFFFF) (hmod : r % 0xFFFF = s % 0xFFFF) (hpos : 0 < r ↔ 0 < s) :
    fold s = r := by
  obtain ⟨hle', hmod', hpos', hzero⟩ := fold_spec s
  omega

/-- A round of the fold changes nothing of its result (40_checksum_engine.md R72). -/
theorem fold_round (s : Nat) : fold ((s &&& 0xFFFF) + (s >>> 16)) = fold s := by
  obtain ⟨hle, hmod, hpos, hzero⟩ := fold_spec s
  rw [foldRound_eq]
  exact fold_eq_of hle (by omega) (by omega)

/-- A sum may be folded before more is added to it. -/
theorem fold_fold_add (a b : Nat) : fold (fold a + b) = fold (a + b) := by
  obtain ⟨-, hmod, hpos, hzero⟩ := fold_spec a
  obtain ⟨hle, hmod', hpos', hzero'⟩ := fold_spec (a + b)
  exact fold_eq_of hle (by omega) (by omega)

/-- One addition into the 16-bit accumulator of 40_checksum_engine.md R73, with its end-around carry. -/
def accumulate (acc w : Nat) : Nat := if 0xFFFF < acc + w then ((acc + w) &&& 0xFFFF) + 1 else acc + w

/-- The increment never carries again, so one addition is a fold. -/
theorem accumulate_eq_fold {acc w : Nat} (hacc : acc ≤ 0xFFFF) (hw : w ≤ 0xFFFF) :
    accumulate acc w = fold (acc + w) := by
  unfold accumulate
  split
  · have hcarry : (acc + w) >>> 16 = 1 := by rw [Nat.shiftRight_eq_div_pow]; omega
    have hround := foldRound_eq (acc + w)
    rw [← fold_round, fold_of_le (by omega), hcarry]
  · rw [fold_of_le (by omega)]

/-- The accumulator holds the fold of what was added. -/
theorem foldl_accumulate {ws : List Nat} (hws : ∀ w ∈ ws, w ≤ 0xFFFF) {acc : Nat} (hacc : acc ≤ 0xFFFF) :
    ws.foldl accumulate acc = fold (acc + ws.sum) := by
  induction ws generalizing acc with
  | nil => exact (fold_of_le hacc).symm
  | cons w ws ih =>
    obtain ⟨hw, hws⟩ := List.forall_mem_cons.1 hws
    rw [List.foldl_cons, accumulate_eq_fold hacc hw, ih hws (fold_spec _).1, fold_fold_add, List.sum_cons,
      Nat.add_assoc]

/-- A checksum is 0xFFFF exactly when the word sum is zero. -/
theorem cksum_eq_ones_iff (b : List Byte) : cksum b = 0xFFFF ↔ wsum b = 0 := by
  obtain ⟨hle, -, hpos, hzero⟩ := fold_spec (wsum b)
  have hones : (0xFFFF : Half).toNat = 0xFFFF := rfl
  rw [BitVec.toNat_eq, cksum_toNat, hones]
  omega

/-- The zero-sum test of 40_checksum_engine.md R78, by the fold of the word sum. -/
theorem cksum_eq_zero_iff_fold (b : List Byte) : cksum b = 0x0000 ↔ fold (wsum b) = 0xFFFF := by
  have hle := (fold_spec (wsum b)).1
  have hzero : (0x0000 : Half).toNat = 0 := rfl
  rw [BitVec.toNat_eq, cksum_toNat, hzero]
  omega

/-- The zero-sum test of 40_checksum_engine.md R78, by the word sum itself (R73). -/
theorem cksum_eq_zero_iff (b : List Byte) : cksum b = 0x0000 ↔ 0 < wsum b ∧ wsum b % 0xFFFF = 0 := by
  obtain ⟨hle, hmod, hpos, hzero⟩ := fold_spec (wsum b)
  rw [cksum_eq_zero_iff_fold]
  omega

/-- Settles O12: a fold is determined by its size, its residue and whether it is zero; each clause compares these. -/
theorem foldIsEndAroundCarry : Obligations.FoldIsEndAroundCarry := by
  refine ⟨fun s => ?loop, rfl, fun s hs => ?bounds, fun s r hs h1 hle hmod => fold_eq_of hle hmod (by omega),
    cksum_toNat, fun b => (cksum_eq_ones_iff b).trans (wsum_eq_zero_iff b), cksum_eq_zero_iff, fun b => ?accumulator⟩
  case loop =>
    split
    · exact fold_of_le ‹_›
    · exact (fold_round s).symm
  case bounds =>
    obtain ⟨hle, hmod, hpos, -⟩ := fold_spec s
    exact ⟨hpos hs, hle, hmod⟩
  case accumulator =>
    have hacc := foldl_accumulate (fun _ => le_of_mem_wordsOf (b := b)) (Nat.zero_le 0xFFFF)
    rwa [Nat.zero_add, ← wsum_eq_sum_wordsOf] at hacc

/-- Two rounds are enough for a sum within the bound of 40_checksum_engine.md R75. -/
theorem fold_eq_two_rounds {s : Nat} (h : s ≤ 0x7FFF8000) :
    fold s = (((s &&& 0xFFFF) + (s >>> 16)) &&& 0xFFFF) + (((s &&& 0xFFFF) + (s >>> 16)) >>> 16) := by
  rw [← fold_round, ← fold_round]
  apply fold_of_le
  simp only [foldRound_eq]
  omega

/-- Settles O13: the bound on the words bounds the first round, and the second leaves sixteen bits. -/
theorem sumBoundAndTwoFolds : Obligations.SumBoundAndTwoFolds := by
  refine ⟨fun b hb => ?_, by decide, by decide, by decide, by decide⟩
  have hsum : wsum b ≤ 0x7FFF8000 := (wsum_le b).trans (by omega)
  refine ⟨hsum, ?_, fold_eq_two_rounds hsum⟩
  simp only [foldRound_eq]
  omega

/-! ## The command CKSUM -/

/-- The bytes of a range, listed by index. -/
theorem Memory.readRange_eq_bytesOf (m : Memory) (a n : Nat) : m.readRange a n = bytesOf n fun k => m.read (a + k) := by
  apply List.ext_getElem (by simp [bytesOf])
  intro k h1 h2
  simp [Memory.readRange_getElem, bytesOf]

/-- CKSUM of a range that passes the end of PB (60_exceptions.md R146). -/
theorem exec_cksum_out {s : State} {off len : Half} (h : s.cfg.pbBytes < off.toNat + len.toNat) :
    exec (.cksum off len) s = answerRefused s :=
  withRange_out h _

/-- Settles O14: the range decides between the two answers, and the corner cases are sums of no word and of one. -/
theorem cksumCommand : Obligations.CksumCommand := by
  refine ⟨fun w hop => ?decode, fun s off len h => exec_cksum_out h, fun s off len h => ?inRange,
    fun s off h => ?empty, fun s off h => ?oneByte⟩
  case decode =>
    have hop : cmdOp w = 0x01 := hop
    rw [decode, decodeCmd, hop]
    rfl
  case inRange =>
    rw [exec_cksum_in h, Memory.readRange_eq_bytesOf]
    rfl
  case empty =>
    have hempty : valHalf (cksum []) = 0xFFFF := by decide
    exact (exec_cksum_in (len := 0) h).trans (congrArg (answerOk s) hempty)
  case oneByte =>
    have hone : (1 : Half).toNat = 1 := rfl
    rw [exec_cksum_in h, hone, Memory.readRange_one, valHalf_cksum_single]
    rfl

/-! ## Changing one byte, and the checksum field -/

/-- What a unit of the byte at an index adds to the word sum: bytes at even indices are high-order. -/
def byteWeight (i : Nat) : Nat := if i % 2 = 0 then 256 else 1

theorem byteWeight_even {i : Nat} (h : i % 2 = 0) : byteWeight i = 256 := if_pos h

theorem byteWeight_odd {i : Nat} (h : i % 2 = 1) : byteWeight i = 1 := if_neg (by omega)

@[simp] theorem byteWeight_zero : byteWeight 0 = 256 := rfl
@[simp] theorem byteWeight_one : byteWeight 1 = 1 := rfl

@[simp] theorem byteWeight_add_two (i : Nat) : byteWeight (i + 2) = byteWeight i := by
  simp only [byteWeight, Nat.add_mod_right]

/-- Replacing a byte moves the word sum by the difference, weighted (40_checksum_engine.md R71). -/
theorem wsum_set {b : List Byte} {i : Nat} (h : i < b.length) (x : Byte) :
    wsum (b.set i x) + (b.getD i 0).toNat * byteWeight i = wsum b + x.toNat * byteWeight i := by
  induction b using wsum.induct generalizing i with
  | case1 => simp at h
  | case2 b =>
    have : i = 0 := by simpa using h
    subst this
    simp [Nat.shiftLeft_eq, Nat.add_comm]
  | case3 hi lo bs ih =>
    match i with
    | 0 | 1 =>
      simp only [List.set_cons_zero, List.set_cons_succ, wsum_cons_cons, be16_eq, List.getD_cons_zero,
        List.getD_cons_succ, byteWeight_zero, byteWeight_one]
      omega
    | i + 2 =>
      have := ih (i := i) (by simpa using h)
      simp only [List.set_cons_succ, wsum_cons_cons, List.getD_cons_succ, byteWeight_add_two]
      omega

/-- The number a field value adds to the word sum: with an odd `HLEN` its bytes change places (40_checksum_engine.md
R81). -/
def fieldWord (hlen : Nat) (c : Half) : Half := if hlen % 2 = 0 then c else loByte c ++ hiByte c

theorem hiByte_toNat (c : Half) : (hiByte c).toNat = c.toNat / 256 := by
  have := c.isLt
  simp only [hiByte, BitVec.extractLsb'_toNat, Nat.shiftRight_eq_div_pow]
  omega

theorem loByte_toNat (c : Half) : (loByte c).toNat = c.toNat % 256 := by
  simp [loByte]

theorem fieldWord_even {hlen : Nat} (h : hlen % 2 = 0) (c : Half) : fieldWord hlen c = c := if_pos h

theorem fieldWord_odd_toNat {hlen : Nat} (h : hlen % 2 = 1) (c : Half) :
    (fieldWord hlen c).toNat = c.toNat % 256 * 256 + c.toNat / 256 := by
  rw [fieldWord, if_neg (by omega), BitVec.toNat_append, ← Nat.shiftLeft_add_eq_or_of_lt (hiByte c).isLt,
    Nat.shiftLeft_eq, hiByte_toNat, loByte_toNat]

/-- Exchanging two bytes twice changes nothing. -/
theorem fieldWord_involutive (hlen : Nat) : Function.Involutive (fieldWord hlen) := by
  intro c
  rcases Nat.mod_two_eq_zero_or_one hlen with h | h
  · rw [fieldWord_even h, fieldWord_even h]
  · apply BitVec.eq_of_toNat_eq
    have := c.isLt
    rw [fieldWord_odd_toNat h, fieldWord_odd_toNat h]
    omega

@[simp] theorem fieldWord_zero (hlen : Nat) : fieldWord hlen 0x0000 = 0x0000 := by
  unfold fieldWord; split <;> decide

@[simp] theorem fieldWord_ones (hlen : Nat) : fieldWord hlen 0xFFFF = 0xFFFF := by
  unfold fieldWord; split <;> decide

/-- Cutting an image to its region commutes with writing the field. -/
theorem setCkField_take (img : List Byte) (hlen n : Nat) (c : Half) :
    (setCkField img hlen c).take n = setCkField (img.take n) hlen c := by
  simp only [setCkField, List.take_set]

/-- The two bytes of the field, weighted by where they stand. -/
theorem fieldWord_toNat {hlen : Nat} (h2 : 2 ≤ hlen) (c : Half) :
    (fieldWord hlen c).toNat =
      (hiByte c).toNat * byteWeight (hlen - 2) + (loByte c).toNat * byteWeight (hlen - 1) := by
  rw [hiByte_toNat, loByte_toNat]
  rcases Nat.mod_two_eq_zero_or_one hlen with h | h
  · rw [fieldWord_even h, byteWeight_even (by omega), byteWeight_odd (by omega)]
    omega
  · rw [fieldWord_odd_toNat h, byteWeight_odd (by omega), byteWeight_even (by omega)]
    omega

/-- Writing the field replaces what its two bytes add to the word sum. -/
theorem wsum_setCkField_add {b : List Byte} {hlen : Nat} (h2 : 2 ≤ hlen) (hle : hlen ≤ b.length) (c : Half) :
    wsum (setCkField b hlen c) +
        ((b.getD (hlen - 2) 0).toNat * byteWeight (hlen - 2) + (b.getD (hlen - 1) 0).toNat * byteWeight (hlen - 1)) =
      wsum b + (fieldWord hlen c).toNat := by
  have hhi := wsum_set (b := b) (i := hlen - 2) (by omega) (hiByte c)
  have hlo := wsum_set (b := b.set (hlen - 2) (hiByte c)) (i := hlen - 1) (by simp; omega) (loByte c)
  have hkeep : (b.set (hlen - 2) (hiByte c)).getD (hlen - 1) 0 = b.getD (hlen - 1) 0 := by
    simp [show hlen - 2 ≠ hlen - 1 by omega]
  rw [hkeep] at hlo
  rw [fieldWord_toNat h2, setCkField]
  omega

/-- Writing the field adds it to the word sum of the other bytes (40_checksum_engine.md R80 and R81). -/
theorem wsum_setCkField {b : List Byte} {hlen : Nat} (h2 : 2 ≤ hlen) (hle : hlen ≤ b.length) (c : Half) :
    wsum (setCkField b hlen c) = wsum (setCkField b hlen 0) + (fieldWord hlen c).toNat := by
  have hc := wsum_setCkField_add h2 hle c
  have hzero := wsum_setCkField_add h2 hle 0x0000
  rw [fieldWord_zero] at hzero
  have : (0x0000 : Half).toNat = 0 := rfl
  omega

/-- Which sixteen bits make a sum fold to 0xFFFF: the complement of its fold, and all ones when it does so by itself
(40_checksum_engine.md R80 and R82). -/
theorem fold_add_eq_ones_iff (n : Nat) (w : Half) :
    fold (n + w.toNat) = 0xFFFF ↔ w.toNat = 0xFFFF - fold n ∨ (fold n = 0xFFFF ∧ w = 0xFFFF) := by
  obtain ⟨hle, hmod, hpos, hzero⟩ := fold_spec n
  obtain ⟨hle', hmod', hpos', hzero'⟩ := fold_spec (n + w.toNat)
  have hw : w = 0xFFFF ↔ w.toNat = 0xFFFF := BitVec.toNat_eq
  have := w.isLt
  rw [hw]
  omega

/-! ## The laws of the checksum field -/

/-- The coverage region contains the header, and so the checksum field (40_checksum_engine.md R76). -/
theorem hlen_le_length_take_cov {img : List Byte} {hlen : Nat} (hle : hlen ≤ img.length) (flags : Byte) :
    hlen ≤ (img.take (cov flags hlen img.length)).length := by
  unfold cov
  split <;> simp [hle]

section Field
variable {img : List Byte} {flags : Byte} {hlen : Nat} (h2 : 2 ≤ hlen) (hle : hlen ≤ img.length)
include h2 hle

/-- A field value validates exactly when its word makes the sum of the other bytes fold to 0xFFFF
(40_checksum_engine.md R80 and R81). -/
theorem setCkField_validates_iff_fold (c : Half) :
    cksum ((setCkField img hlen c).take (cov flags hlen img.length)) = 0x0000 ↔
      fold (wsum ((setCkField img hlen 0).take (cov flags hlen img.length)) + (fieldWord hlen c).toNat) = 0xFFFF := by
  rw [cksum_eq_zero_iff_fold, setCkField_take, setCkField_take,
    wsum_setCkField h2 (hlen_le_length_take_cov hle flags)]

/-- The field values that validate: the one whose word is the checksum of the zeroed region, and all ones when that
region folds to 0xFFFF (40_checksum_engine.md R82). -/
theorem setCkField_validates_iff (c : Half) :
    let zeroed := (setCkField img hlen 0).take (cov flags hlen img.length)
    cksum ((setCkField img hlen c).take (cov flags hlen img.length)) = 0x0000 ↔
      c = fieldWord hlen (cksum zeroed) ∨ (fold (wsum zeroed) = 0xFFFF ∧ c = 0xFFFF) := by
  intro zeroed
  have hones : fieldWord hlen c = 0xFFFF ↔ c = 0xFFFF := by
    rw [(fieldWord_involutive hlen).eq_iff, fieldWord_ones, eq_comm]
  rw [setCkField_validates_iff_fold h2 hle, fold_add_eq_ones_iff, hones, ← cksum_toNat, ← BitVec.toNat_eq,
    (fieldWord_involutive hlen).eq_iff, eq_comm (a := c)]

end Field

/-- Settles O15: with an even `HLEN` the field is a word of the region, and inject writes the value that balances the
sum of the others. -/
theorem injectedChecksumValidates : Obligations.InjectedChecksumValidates := by
  intro img flags hlen h6 hle heven
  exact (setCkField_validates_iff (by omega) hle _).2 (.inl (fieldWord_even heven _).symm)

/-- With an odd `HLEN` a field value is its own word exactly when its two bytes are equal (40_checksum_engine.md
R81). -/
theorem eq_fieldWord_odd_iff {hlen : Nat} (h : hlen % 2 = 1) (c : Half) :
    c = fieldWord hlen c ↔ c.toNat / 256 = c.toNat % 256 := by
  have := c.isLt
  rw [BitVec.toNat_eq, fieldWord_odd_toNat h]
  omega

/-- Settles O16: with an odd `HLEN` the field's word has its bytes exchanged; of the values that validate, inject can
only have written the one whose word is the checksum. -/
theorem oddHeaderLengthSwapsTheField : Obligations.OddHeaderLengthSwapsTheField := by
  refine ⟨fun img flags hlen h6 hle hodd => ⟨fun c => ?swapped, ?injected⟩, by decide, by decide, by decide⟩
  case swapped =>
    rw [← fieldWord_odd_toNat hodd]
    exact setCkField_validates_iff_fold (by omega) hle c
  case injected =>
    refine (setCkField_validates_iff (by omega) hle _).trans ((or_iff_left ?_).trans (eq_fieldWord_odd_iff hodd _))
    rintro ⟨hfold, hones⟩
    rw [(cksum_eq_zero_iff_fold _).2 hfold] at hones
    exact absurd hones (by decide)

/-- Settles O17: the value whose word is the checksum validates, and in the one case all ones do too. -/
theorem fieldValuesThatValidate : Obligations.FieldValuesThatValidate := by
  refine ⟨fun img flags hlen h6 hle => ?_, by decide, by decide⟩
  intro region folded
  have hvalid := setCkField_validates_iff (flags := flags) (by omega : 2 ≤ hlen) hle
  refine ⟨fun hfold => ?two, fun hfold => ?one⟩
  case two =>
    have hck : cksum ((setCkField img hlen 0).take region) = 0x0000 := (cksum_eq_zero_iff_fold _).2 hfold
    refine ⟨congrArg (setCkField img hlen) hck, fun c => (hvalid c).trans ?_⟩
    change c = fieldWord hlen (cksum ((setCkField img hlen 0).take region)) ∨ (folded = 0xFFFF ∧ c = 0xFFFF) ↔ _
    rw [hck, fieldWord_zero, and_iff_right hfold]
  case one =>
    have hunique (c : Half) := (hvalid c).trans (or_iff_left fun h => hfold h.1)
    exact ⟨_, (hunique _).2 rfl, fun c => (hunique c).1⟩

/-! ## A change of one bit -/

/-- An image with bit `j` of byte `i` changed (40_checksum_engine.md R83). -/
def flipBit (img : List Byte) (i j : Nat) : List Byte := img.set i (img.getD i 0 ^^^ (1#8 <<< j))

@[simp] theorem flipBit_length (img : List Byte) (i j : Nat) : (flipBit img i j).length = img.length := by
  simp [flipBit]

theorem flipBit_getD_ne (img : List Byte) {i k : Nat} (j : Nat) (h : i ≠ k) :
    (flipBit img i j).getD k 0 = img.getD k 0 := by
  simp [flipBit, h]

theorem flipBit_getD_self {img : List Byte} {i : Nat} (h : i < img.length) (j : Nat) :
    (flipBit img i j).getD i 0 = img.getD i 0 ^^^ (1#8 <<< j) := by
  simp [flipBit, h]

theorem flipBit_take (img : List Byte) {i n : Nat} (j : Nat) (h : i < n) :
    (flipBit img i j).take n = flipBit (img.take n) i j := by
  simp [flipBit, List.take_set, h]

/-- A byte with one bit changed is that bit's weight more or less. -/
theorem toNat_xor_bit : ∀ j < 8, ∀ x : Byte,
    (x ^^^ (1#8 <<< j)).toNat = x.toNat + 2 ^ j ∨ x.toNat = (x ^^^ (1#8 <<< j)).toNat + 2 ^ j := by
  decide

/-- A change of another bit of the flags byte leaves CHK as it was. -/
theorem chkSet_xor_bit (f : Byte) : ∀ j < 8, j ≠ 2 → chkSet (f ^^^ (1#8 <<< j)) = chkSet f := by
  revert f
  decide

/-- The coverage region of an image is told by CHK and `HLEN` (40_checksum_engine.md R76). -/
def regionLen (img : List Byte) : Nat := cov (imgFlags img) (imgHlen img).toNat img.length

/-- A change of a bit other than CHK and those of `HLEN` keeps the region. -/
theorem regionLen_flipBit {img : List Byte} {i j : Nat} (hi : i < img.length) (hj : j < 8) (hhlen : i ≠ 1)
    (hchk : ¬ (i = 0 ∧ j = 2)) : regionLen (flipBit img i j) = regionLen img := by
  have hflags : chkSet (imgFlags (flipBit img i j)) = chkSet (imgFlags img) := by
    unfold imgFlags
    by_cases h0 : i = 0
    · subst h0
      rw [flipBit_getD_self hi, chkSet_xor_bit _ j hj fun h => hchk ⟨rfl, h⟩]
    · rw [flipBit_getD_ne img j h0]
  have hlen : imgHlen (flipBit img i j) = imgHlen img := flipBit_getD_ne img j hhlen
  rw [regionLen, cov, hflags, hlen, flipBit_length]
  rfl

/-- A change of one bit moves the word sum by a power of two up to 2^15 (40_checksum_engine.md R83). -/
theorem wsum_flipBit {b : List Byte} {i j : Nat} (hi : i < b.length) (hj : j < 8) :
    ∃ e, e ≤ 15 ∧ (wsum (flipBit b i j) = wsum b + 2 ^ e ∨ wsum b = wsum (flipBit b i j) + 2 ^ e) := by
  have hset : wsum (flipBit b i j) + _ = _ := wsum_set hi (b.getD i 0 ^^^ (1#8 <<< j))
  have hbit := toNat_xor_bit j hj (b.getD i 0)
  rcases Nat.mod_two_eq_zero_or_one i with h | h
  · refine ⟨j + 8, by omega, ?_⟩
    rw [byteWeight_even h] at hset
    rw [Nat.pow_add]
    omega
  · refine ⟨j, by omega, ?_⟩
    rw [byteWeight_odd h] at hset
    omega

/-- Two sums that differ by a power of two up to 2^15 are not both multiples of 0xFFFF. -/
theorem mod_ne_zero_of_add_pow {m n e : Nat} (he : e ≤ 15) (h : m = n + 2 ^ e ∨ n = m + 2 ^ e)
    (hn : n % 0xFFFF = 0) : m % 0xFFFF ≠ 0 := by
  have hpos : 0 < 2 ^ e := Nat.two_pow_pos e
  have hle : 2 ^ e ≤ 2 ^ 15 := Nat.pow_le_pow_right (by decide) he
  omega

/-- Settles O18: the change moves the word sum off the multiples of 0xFFFF. -/
theorem singleBitChangeIsDetected : Obligations.SingleBitChangeIsDetected := by
  intro img i j region changed hregion hi hj hhlen hchk
  have hkeep : region changed = region img := regionLen_flipBit (hi.trans_le hregion) hj hhlen hchk
  have htake : changed.take (region img) = flipBit (img.take (region img)) i j := flipBit_take img j hi
  obtain ⟨e, he, hsum⟩ := wsum_flipBit (b := img.take (region img)) (i := i) (by simp; omega) hj
  rw [hkeep, htake]
  refine ⟨rfl, ⟨e, he, hsum⟩, fun hvalid hvalid' => ?_⟩
  exact mod_ne_zero_of_add_pow he hsum ((cksum_eq_zero_iff _).1 hvalid).2 ((cksum_eq_zero_iff _).1 hvalid').2

end Sys2Proof.Machine

/-! ## Segments as bytes given by index -/

namespace Sys2Proof.Machine

section Bytes
variable {n : Nat} {byte byte' : Nat → Byte}

@[simp] theorem bytesOf_length (n : Nat) (byte : Nat → Byte) : (bytesOf n byte).length = n := by
  simp [bytesOf]

@[simp] theorem bytesOf_getElem {k : Nat} (h : k < (bytesOf n byte).length) : (bytesOf n byte)[k] = byte k := by
  simp [bytesOf]

theorem bytesOf_getD {k : Nat} (h : k < n) : (bytesOf n byte).getD k 0 = byte k := by
  rw [List.getD_eq_getElem _ _ (by simpa using h), bytesOf_getElem]

/-- A list is known by its length and its bytes. -/
theorem eq_bytesOf {l : List Byte} (hlen : l.length = n) (h : ∀ k (hk : k < l.length), l[k] = byte k) :
    l = bytesOf n byte :=
  List.ext_getElem (by simpa using hlen) fun k hk _ => by rw [h k hk, bytesOf_getElem]

theorem bytesOf_congr (h : ∀ k, k < n → byte k = byte' k) : bytesOf n byte = bytesOf n byte' :=
  eq_bytesOf (by simp) fun k hk => by rw [bytesOf_getElem, h k (by simpa using hk)]

theorem bytesOf_take {i : Nat} (h : i ≤ n) : (bytesOf n byte).take i = bytesOf i byte :=
  eq_bytesOf (by simp [h]) fun k hk => by simp

theorem bytesOf_drop (i : Nat) : (bytesOf n byte).drop i = bytesOf (n - i) fun k => byte (i + k) :=
  eq_bytesOf (by simp) fun k hk => by simp

/-- The record of an image given byte by byte (30_encoding.md R54). -/
theorem recordOf_bytesOf (t : Variant) {len : Half} (h6 : 6 ≤ (byte 1).toNat) (hle : (byte 1).toNat ≤ len.toNat) :
    recordOf t (bytesOf len.toNat byte) = wireRecord t len byte := by
  have hget {k : Nat} (hk : k < 6) : (bytesOf len.toNat byte).getD k 0 = byte k := bytesOf_getD (by omega)
  have hhext : slice (bytesOf len.toNat byte) 4 ((byte 1).toNat - 6) =
      bytesOf ((byte 1).toNat - 6) fun k => byte (4 + k) := by
    rw [slice, bytesOf_drop, bytesOf_take (by omega)]
  simp only [recordOf, imgFlags, imgHlen, imgSeq, imgAckn, ackSet, hget (by decide : 0 < 6), hget (by decide : 1 < 6),
    hget (by decide : 2 < 6), hget (by decide : 3 < 6), hhext, bytesOf_drop, bytesOf_length, BitVec.ofNat_toNat,
    BitVec.setWidth_eq]
  rfl

/-- The bytes of the checksum field take no part in the record (41_segment_facade.md R86). -/
theorem wireRecord_congr (t : Variant) {len : Half} (h6 : 6 ≤ (byte 1).toNat) (hle : (byte 1).toNat ≤ len.toNat)
    (h : ∀ k, k < len.toNat → k ≠ (byte 1).toNat - 2 → k ≠ (byte 1).toNat - 1 → byte' k = byte k) :
    wireRecord t len byte' = wireRecord t len byte := by
  have hhead {k : Nat} (hk : k < 4) : byte' k = byte k := h k (by omega) (by omega) (by omega)
  have hhext : bytesOf ((byte 1).toNat - 6) (fun k => byte' (4 + k)) =
      bytesOf ((byte 1).toNat - 6) fun k => byte (4 + k) :=
    bytesOf_congr fun k hk => h _ (by omega) (by omega) (by omega)
  have htpay : bytesOf (len.toNat - (byte 1).toNat) (fun k => byte' ((byte 1).toNat + k)) =
      bytesOf (len.toNat - (byte 1).toNat) fun k => byte ((byte 1).toNat + k) :=
    bytesOf_congr fun k hk => h _ (by omega) (by omega) (by omega)
  rw [bytesOf, bytesOf] at hhext htpay
  simp only [wireRecord, hhead (by decide : 0 < 4), hhead (by decide : 1 < 4), hhead (by decide : 2 < 4),
    hhead (by decide : 3 < 4), hhext, htpay]

end Bytes

/-! ## The image of a record -/

section Image
variable {r : Record}

@[simp] theorem Record.byteAt_zero (r : Record) : r.byteAt 0 = r.flags := rfl
@[simp] theorem Record.byteAt_one (r : Record) : r.byteAt 1 = r.hlen := rfl
@[simp] theorem Record.byteAt_two (r : Record) : r.byteAt 2 = r.seq := rfl

/-- The header extension stands from wire byte 4 on (41_segment_facade.md R99). -/
theorem Record.byteAt_hext {k : Nat} (h : k < r.hlen.toNat - 6) : r.byteAt (4 + k) = r.hext.getD k 0 := by
  rw [Record.byteAt, if_neg (by omega), if_neg (by omega), if_neg (by omega), if_neg (by omega), if_pos (by omega),
    Nat.add_sub_cancel_left]

/-- The checksum field of an image is zero (41_segment_facade.md R87). -/
theorem Record.byteAt_field {k : Nat} (h6 : 6 ≤ r.hlen.toNat) (hlo : r.hlen.toNat ≤ k + 2) (hhi : k < r.hlen.toNat) :
    r.byteAt k = 0x00 := by
  rw [Record.byteAt, if_neg (by omega), if_neg (by omega), if_neg (by omega), if_neg (by omega), if_neg (by omega),
    if_pos hhi]

/-- The payload stands from wire byte `HLEN` on (41_segment_facade.md R102). -/
theorem Record.byteAt_tpay (h6 : 6 ≤ r.hlen.toNat) (k : Nat) : r.byteAt (r.hlen.toNat + k) = r.tpay.getD k 0 := by
  rw [Record.byteAt, if_neg (by omega), if_neg (by omega), if_neg (by omega), if_neg (by omega), if_neg (by omega),
    if_neg (by omega), Nat.add_sub_cancel_left]

/-- Under 10_state.md R21 the number is what wire byte 3 and the ACK bit say. -/
theorem Record.ackn_eq (h : r.wf = true) : (if ackSet r.flags then some r.ackByte else none) = r.ackn := by
  obtain ⟨-, -, -, -, -, -, hack⟩ := (Record.wf_iff r).1 h
  rw [Record.ackByte, ← hack]
  cases r.ackn <;> rfl

/-- The bytes of an image say everything of a record but its counter (41_segment_facade.md R91). -/
theorem wireRecord_byteAt (h : r.wf = true) : wireRecord r.type r.len r.byteAt = { r with retx := 0 } := by
  obtain ⟨h6, hle, hhextLen, htpayLen, -, -, -⟩ := (Record.wf_iff r).1 h
  have hhext : r.hext = bytesOf (r.hlen.toNat - 6) fun k => r.byteAt (4 + k) :=
    eq_bytesOf hhextLen fun k hk => by rw [Record.byteAt_hext (by omega), List.getD_eq_getElem _ _ hk]
  have htpay : r.tpay = bytesOf (r.len.toNat - r.hlen.toNat) fun k => r.byteAt (r.hlen.toNat + k) :=
    eq_bytesOf htpayLen fun k hk => by rw [Record.byteAt_tpay h6, List.getD_eq_getElem _ _ hk]
  simp only [wireRecord, Record.mk.injEq, true_and, and_true]
  exact ⟨r.byteAt_zero, r.byteAt_one, r.byteAt_two, Record.ackn_eq h, hhext.symm, htpay.symm⟩

/-- The image, listed by index (41_segment_facade.md R87). -/
theorem Record.image_eq_bytesOf (h : r.wf = true) : r.image = bytesOf r.len.toNat r.byteAt :=
  eq_bytesOf r.image_length (Record.image_getElem h)

theorem recordOf_image (h : r.wf = true) : recordOf r.type r.image = { r with retx := 0 } := by
  obtain ⟨h6, hle, -⟩ := (Record.wf_iff r).1 h
  rw [Record.image_eq_bytesOf h, recordOf_bytesOf _ h6 hle, wireRecord_byteAt h]

/-! ## The image with its checksum -/

/-- The checksum of a record: that of the coverage region of its image (41_segment_facade.md R90). -/
def Record.checksum (r : Record) : Half := cksum (bytesOf (cov r.flags r.hlen.toNat r.len.toNat) r.byteAt)

/-- The byte at index k of the image with its checksum in the field (41_segment_facade.md R90). -/
def Record.wireByteAt (r : Record) (k : Nat) : Byte :=
  if k + 2 = r.hlen.toNat then hiByte r.checksum
  else if k + 1 = r.hlen.toNat then loByte r.checksum
  else r.byteAt k

/-- The checksum field of an image is zero already. -/
theorem Record.setCkField_image_zero (h : r.wf = true) : setCkField r.image r.hlen.toNat 0 = r.image := by
  obtain ⟨h6, hle, -⟩ := (Record.wf_iff r).1 h
  have hlen := r.image_length
  have hfield {k : Nat} (hlo : r.hlen.toNat ≤ k + 2) (hhi : k < r.hlen.toNat) : r.image[k]? = some 0x00 := by
    rw [List.getElem?_eq_getElem (by omega), Record.image_getElem h, Record.byteAt_field h6 hlo hhi]
  apply List.ext_getElem?
  intro k
  by_cases hhi : k = r.hlen.toNat - 2
  · rw [hhi, setCkField_getElem?_hi _ _ _ (by omega) (by omega), hfield (by omega) (by omega)]
    rfl
  by_cases hlo : k = r.hlen.toNat - 1
  · rw [hlo, setCkField_getElem?_lo _ _ _ (by omega) (by omega), hfield (by omega) (by omega)]
    rfl
  exact setCkField_getElem?_ne _ _ _ _ hhi hlo

/-- Injecting the checksum writes `Record.checksum` into the field. -/
theorem Record.wire_eq (h : r.wf = true) : r.wire = setCkField r.image r.hlen.toNat r.checksum := by
  obtain ⟨-, hle, -⟩ := (Record.wf_iff r).1 h
  have hcov : cov r.flags r.hlen.toNat r.len.toNat ≤ r.len.toNat := by
    unfold cov
    split <;> omega
  rw [Record.wire, inject, Record.setCkField_image_zero h, Record.image_length, Record.checksum]
  conv_lhs => rw [Record.image_eq_bytesOf h, bytesOf_take hcov]
  rw [Record.image_eq_bytesOf h]

/-- The image with its checksum, listed by index. -/
theorem Record.wire_eq_bytesOf (h : r.wf = true) : r.wire = bytesOf r.len.toNat r.wireByteAt := by
  obtain ⟨h6, hle, -⟩ := (Record.wf_iff r).1 h
  have hlen := r.image_length
  refine eq_bytesOf r.wire_length fun k hk => Option.some.inj ?_
  rw [← List.getElem?_eq_getElem hk, Record.wire_eq h, Record.wireByteAt]
  rw [Record.wire_length] at hk
  by_cases hhi : k + 2 = r.hlen.toNat
  · rw [if_pos hhi, ← setCkField_getElem?_hi r.image r.hlen.toNat r.checksum (by omega) (by omega), ← hhi,
      Nat.add_sub_cancel]
  by_cases hlo : k + 1 = r.hlen.toNat
  · rw [if_neg hhi, if_pos hlo, ← setCkField_getElem?_lo r.image r.hlen.toNat r.checksum (by omega) (by omega), ← hlo,
      Nat.add_sub_cancel]
  rw [if_neg hhi, if_neg hlo, setCkField_getElem?_ne _ _ _ _ (by omega) (by omega),
    List.getElem?_eq_getElem (by omega), Record.image_getElem h]

theorem recordOf_wire (h : r.wf = true) : recordOf r.type r.wire = { r with retx := 0 } := by
  obtain ⟨h6, hle, -⟩ := (Record.wf_iff r).1 h
  have hhlen : r.wireByteAt 1 = r.hlen := by
    rw [Record.wireByteAt, if_neg (by omega), if_neg (by omega), Record.byteAt_one]
  rw [Record.wire_eq_bytesOf h, recordOf_bytesOf _ (by rwa [hhlen]) (by rwa [hhlen]), ← wireRecord_byteAt h]
  refine wireRecord_congr _ h6 hle fun k _ hhi hlo => ?_
  rw [Record.byteAt_one] at hhi hlo
  rw [Record.wireByteAt, if_neg (by omega), if_neg (by omega)]

/-- With an even `HLEN` the injected checksum passes the zero-sum test (40_checksum_engine.md R80). -/
theorem Record.verify_wire (h : r.wf = true) (heven : r.hlen.toNat % 2 = 0) :
    verify r.wire r.flags r.hlen.toNat = true := by
  obtain ⟨h6, hle, -⟩ := (Record.wf_iff r).1 h
  have hle : r.hlen.toNat ≤ r.image.length := by rwa [Record.image_length]
  rw [verify, Record.wire, inject_length, beq_iff_eq]
  exact injectedChecksumValidates r.image r.flags r.hlen.toNat h6 hle heven

end Image

/-! ## A decode that succeeds, and a store that is read back -/

/-- The decode of an image whose variant, shape and (if it is tested) checksum are right (42_type_dispatcher.md R113). -/
theorem decodeImage_ok {checked : Bool} {img : List Byte} {t : Variant}
    (hd : dispatch (imgFlags img) img.length = some t) (hs : shapeOk t (imgHlen img).toNat img.length = true)
    (hck : checked = true → verify img (imgFlags img) (imgHlen img).toNat = true) (s : State) :
    decodeImage checked img s = answerOk (s.load (recordOf t img)) (valTag t) := by
  obtain ⟨h6, hle⟩ := shapeOk_bounds hs
  have hmin : ¬ img.length < minHdr := Nat.not_lt.2 (h6.trans hle)
  rw [decodeImage, if_neg hmin, hd]
  rcases decodeAs_cases checked t img s with ⟨hbad | ⟨hc, hbad⟩, -⟩ | ⟨-, -, e⟩
  · cases hs.symm.trans hbad
  · cases (hck hc).symm.trans hbad
  · exact e

/-- PARSE and BUILD of a range whose bytes say everything of a record but its counter load it, the counter 0
(41_segment_facade.md R88 and R91). -/
theorem decodeRange_of_recordOf {checked : Bool} {s : State} {off : Nat} {r : Record} (h : r.wf = true)
    (hle : off + r.len.toNat ≤ s.cfg.pbBytes)
    (hrec : recordOf r.type (s.pb.readRange off r.len.toNat) = { r with retx := 0 })
    (hck : checked = true → verify (s.pb.readRange off r.len.toNat) r.flags r.hlen.toNat = true) :
    withRange s off r.len.toNat (decodeImage checked (s.pb.readRange off r.len.toNat) s) =
      answerOk (s.load { r with retx := 0 }) (valTag r.type) := by
  obtain ⟨-, -, -, -, htype, hshape, -⟩ := (Record.wf_iff r).1 h
  have hflags : imgFlags (s.pb.readRange off r.len.toNat) = r.flags := congrArg Record.flags hrec
  have hhlen : imgHlen (s.pb.readRange off r.len.toNat) = r.hlen := congrArg Record.hlen hrec
  have hlen := s.pb.readRange_length off r.len.toNat
  rw [withRange_in hle, ← hrec]
  exact decodeImage_ok (by rwa [hflags, hlen]) (by rwa [hhlen, hlen]) (by rwa [hflags, hhlen]) s

/-- SER, SERC and DESCRIBE with the range in a canonical PB: the range then holds the bytes, and no other address has
changed. -/
theorem storeRange_reads {s : State} {r : Record} {off : Nat} {n : Record → Nat} {bytes : Record → List Byte}
    {v : Record → Word} (hpb : s.pb.wf = true) (hr : s.sr = some r) (hn : (bytes r).length = n r)
    (hle : off + n r ≤ s.cfg.pbBytes) :
    ∃ m, withRecord s (fun r => withRange s off (n r) (answerOk (s.store off (bytes r)) (v r))) =
        .next { s with pb := m, rsp := some (.ok (v r)), served := s.served + 1 } ∧
      m.readRange off (n r) = bytes r ∧ ∀ a, a < off ∨ off + n r ≤ a → m.read a = s.pb.read a := by
  refine ⟨s.pb.writeRange off (bytes r), ?_, ?_, fun a ha => ?_⟩
  · rw [withRecord_some hr, withRange_in hle]
    rfl
  · rw [← hn, Memory.readRange_writeRange hpb]
  · exact Memory.read_writeRange_outside s.pb off a (bytes r) (hn ▸ ha)

/-- Two instructions in a row, evaluated. -/
theorem runs_of_nextOf {i j : Instr} {s : State} {a n : Nat} {bs : List Byte}
    (h : ((nextOf (exec i s)).bind fun t => nextOf (exec j t)).map (fun u => u.pb.readRange a n) = some bs) :
    ∃ t u, exec i s = .next t ∧ exec j t = .next u ∧ u.pb.readRange a n = bs := by
  have hnext {x : Result} {t : State} (hx : nextOf x = some t) : x = .next t := by
    cases x <;> cases hx
    rfl
  obtain ⟨u, hu, hbs⟩ := Option.map_eq_some_iff.1 h
  obtain ⟨t, ht, hu⟩ := Option.bind_eq_some_iff.1 hu
  exact ⟨t, u, hnext ht, hnext hu, hbs⟩

/-! ## The statements of 41_segment_facade.md: storing a record and decoding it again -/

/-- Settles O35: SERC leaves the image with its checksum in the range; its fields are the record's and, `HLEN` being
even, its checksum validates. The three failures of the converse are evaluated. -/
theorem reserialisationLaw : Obligations.ReserialisationLaw := by
  refine ⟨fun s r off hwf hr heven hle => ?law, runs_of_nextOf ?clearAck, runs_of_nextOf ?zeroForm,
    runs_of_nextOf ?oddHlen⟩
  case clearAck | zeroForm | oddHlen => decide
  case law =>
    obtain ⟨-, ⟨hpb, -⟩, hsr⟩ := (State.wf_iff s).1 hwf
    obtain ⟨m, hserc, hread, -⟩ := storeRange_reads (n := fun r => r.len.toNat) (bytes := Record.wire)
      (v := fun r => valHalf r.len) hpb hr r.wire_length hle
    refine ⟨_, _, hserc, decodeRange_of_recordOf (checked := true) (hsr r hr) hle ?fields fun _ => ?checksum, rfl, rfl⟩
    case fields => exact hread ▸ recordOf_wire (hsr r hr)
    case checksum => exact hread ▸ Record.verify_wire (hsr r hr) heven

/-- Settles O36: SER leaves the image in the range, and its fields are the record's. -/
theorem buildAfterSerRebuilds : Obligations.BuildAfterSerRebuilds := by
  intro s r off hwf hr hle
  obtain ⟨-, ⟨hpb, -⟩, hsr⟩ := (State.wf_iff s).1 hwf
  obtain ⟨m, hser, hread, -⟩ := storeRange_reads (n := fun r => r.len.toNat) (bytes := Record.image)
    (v := fun r => valHalf r.len) hpb hr r.image_length hle
  exact ⟨_, _, hser, decodeRange_of_recordOf (checked := false) (hsr r hr) hle (hread ▸ recordOf_image (hsr r hr)) nofun,
    rfl, rfl⟩

end Sys2Proof.Machine

/-! ## The statements of 41_segment_facade.md: BUILD -/

namespace Sys2Proof.Machine

/-- BUILD of a range that passes the end of PB (60_exceptions.md R146). -/
theorem exec_build_out {s : State} {off len : Half} (h : s.cfg.pbBytes < off.toNat + len.toNat) :
    exec (.build off len) s = answerRefused s :=
  withRange_out h _

/-- BUILD of a range whose first two bytes and length give a variant whose shape the segment has: the other bytes are
not tested (41_segment_facade.md R86). -/
theorem exec_build_ok {s : State} {off len : Half} {t : Variant} (hin : off.toNat + len.toNat ≤ s.cfg.pbBytes)
    (hd : dispatch (s.pb.read off.toNat) len.toNat = some t)
    (hs : shapeOk t (s.pb.read (off.toNat + 1)).toNat len.toNat = true) :
    exec (.build off len) s =
      answerOk (s.load (wireRecord t len fun k => s.pb.read (off.toNat + k))) (valTag t) := by
  obtain ⟨h6, hle⟩ := shapeOk_bounds hs
  have hflags : imgFlags (s.pb.readRange off.toNat len.toNat) = s.pb.read off.toNat :=
    Memory.readRange_getD _ _ _ _ (by omega)
  have hhlen : imgHlen (s.pb.readRange off.toNat len.toNat) = s.pb.read (off.toNat + 1) :=
    Memory.readRange_getD _ _ _ _ (by omega)
  have hrec := recordOf_bytesOf (byte := fun k => s.pb.read (off.toNat + k)) t h6 hle
  rw [← Memory.readRange_eq_bytesOf] at hrec
  rw [← hrec]
  refine (withRange_in hin _).trans (decodeImage_ok (checked := false) ?_ ?_ nofun s)
  · rwa [hflags, Memory.readRange_length]
  · rwa [hhlen, Memory.readRange_length]

/-- Settles O22: out of range BUILD is REFUSED; else the first two bytes and the length decide between the decode and
INVALID. -/
theorem buildCommand : Obligations.BuildCommand := by
  refine ⟨fun w => ?decode, fun s off len => ?outcomes⟩
  case decode =>
    obtain ⟨-, -, hbuild, -⟩ := operationCodeSelectsCommand w
    exact hbuild
  case outcomes =>
    refine ⟨exec_build_out, fun hin hn => ?short, fun hin hn hd => ?noVariant, fun t hin hn hd hs => ?badShape,
      fun t hin hn hd hs => exec_build_ok hin hd hs⟩
    case short => exact (exec_parse_build_invalid hin fun t h6 _ => absurd h6 (Nat.not_le.2 hn)).2
    case noVariant => exact (exec_parse_build_invalid hin fun t _ ht => by cases hd.symm.trans ht).2
    case badShape => exact (exec_parse_build_invalid hin fun t' _ ht => by cases hd.symm.trans ht; exact hs).2

/-- Settles O23: both images have the same first two bytes and the same length, so they end alike, and the record does
not hold the field. -/
theorem buildIgnoresTheChecksumField : Obligations.BuildIgnoresTheChecksumField := by
  intro s m off len h h6 hagree
  rcases Nat.lt_or_ge s.cfg.pbBytes (off.toNat + len.toNat) with hout | hin
  · exact ⟨_, _, exec_build_out hout, exec_build_out (s := { s with pb := m }) hout, rfl, rfl⟩
  have hflags (hn : 6 ≤ len.toNat) : m.read off.toNat = s.pb.read off.toNat := hagree 0 (by omega) (by omega) (by omega)
  have hhlen (hn : 6 ≤ len.toNat) : m.read (off.toNat + 1) = s.pb.read (off.toNat + 1) :=
    hagree 1 (by omega) (by omega) (by omega)
  by_cases hgood : ∃ t, dispatch (s.pb.read off.toNat) len.toNat = some t ∧ shapeOk t h len.toNat = true
  · obtain ⟨t, hd, hs⟩ := hgood
    have hle : h ≤ len.toNat := (shapeOk_bounds hs).2
    have hn : 6 ≤ len.toNat := h6.trans hle
    have hrec := wireRecord_congr (byte := fun k => s.pb.read (off.toNat + k)) t h6 hle hagree
    exact ⟨_, _, exec_build_ok hin hd hs,
      exec_build_ok (s := { s with pb := m }) hin (by rwa [hflags hn]) (by rwa [hhlen hn]), congrArg some hrec, rfl⟩
  · have hbad (t : Variant) (_ : 6 ≤ len.toNat) (hd : dispatch (s.pb.read off.toNat) len.toNat = some t) :
        shapeOk t h len.toNat = false := Bool.eq_false_iff.2 fun hs => hgood ⟨t, hd, hs⟩
    have hbad' (t : Variant) (hn : 6 ≤ len.toNat) (hd : dispatch (m.read off.toNat) len.toNat = some t) :
        shapeOk t (m.read (off.toNat + 1)).toNat len.toNat = false := by
      rw [hhlen hn]
      exact hbad t hn (hflags hn ▸ hd)
    exact ⟨_, _, (exec_parse_build_invalid hin hbad).2, (exec_parse_build_invalid (s := { s with pb := m }) hin hbad').2,
      rfl, rfl⟩

end Sys2Proof.Machine

/-! ## The statements of 41_segment_facade.md: SER and SERC -/

namespace Sys2Proof.Machine

/-- A byte of a range whose content is known. -/
theorem Memory.read_of_readRange {m : Memory} {a n : Nat} {byte : Nat → Byte} (h : m.readRange a n = bytesOf n byte)
    {k : Nat} (hk : k < n) : m.read (a + k) = byte k := by
  rw [← Memory.readRange_getD m a n k hk, h, bytesOf_getD hk]

/-- SER and SERC, every outcome: REFUSED without a record or a range in PB, else the range holds the bytes, given by
index. -/
theorem storeImage_outcomes {bytes : Record → List Byte} {byteOf : Record → Nat → Byte}
    (hlen : ∀ r, (bytes r).length = r.len.toNat)
    (hbytes : ∀ {r}, r.wf = true → bytes r = bytesOf r.len.toNat (byteOf r)) (s : State) (off : Nat) :
    let result := withRecord s fun r =>
      withRange s off r.len.toNat (answerOk (s.store off (bytes r)) (valHalf r.len))
    (s.sr = none → result = answerRefused s) ∧
    ∀ r, s.sr = some r →
      (s.cfg.pbBytes < off + r.len.toNat → result = answerRefused s) ∧
      (s.wf = true → off + r.len.toNat ≤ s.cfg.pbBytes →
        ∃ m, result = .next { s with pb := m, rsp := some (.ok (valHalf r.len)), served := s.served + 1 } ∧
          (∀ k, k < r.len.toNat → m.read (off + k) = byteOf r k) ∧
          (∀ a, a < off ∨ off + r.len.toNat ≤ a → m.read a = s.pb.read a)) := by
  refine ⟨fun hnone => withRecord_none hnone _, fun r hr =>
    ⟨fun hout => (withRecord_some hr _).trans (withRange_out hout _), fun hwf hle => ?_⟩⟩
  obtain ⟨-, ⟨hpb, -⟩, hsr⟩ := (State.wf_iff s).1 hwf
  obtain ⟨m, hnext, hread, hframe⟩ := storeRange_reads (n := fun r => r.len.toNat) (bytes := bytes)
    (v := fun r => valHalf r.len) hpb hr (hlen r) hle
  rw [hbytes (hsr r hr)] at hread
  exact ⟨m, hnext, fun k hk => Memory.read_of_readRange hread hk, hframe⟩

/-- Settles O30: SER is a store of the image, whose bytes `Record.byteAt` gives. -/
theorem serWritesTheImage : Obligations.SerWritesTheImage := by
  refine ⟨fun w => ?decode, fun s off => storeImage_outcomes Record.image_length Record.image_eq_bytesOf s off.toNat⟩
  obtain ⟨-, -, -, hser, -⟩ := operationCodeSelectsCommand w
  exact hser

/-- Settles O31: SERC is a store of the image with its checksum, whose bytes `Record.wireByteAt` gives. -/
theorem sercWritesImageAndChecksum : Obligations.SercWritesImageAndChecksum := by
  refine ⟨fun w => ?decode, fun s off => storeImage_outcomes Record.wire_length Record.wire_eq_bytesOf s off.toNat⟩
  obtain ⟨-, -, -, -, hserc, -⟩ := operationCodeSelectsCommand w
  exact hserc

end Sys2Proof.Machine

/-! ## The statements of 41_segment_facade.md: accessors and setters -/

namespace Sys2Proof.Machine

/-- Settles O37: each accessor answers from the record. -/
theorem accessorsAnswerTheStoredField : Obligations.AccessorsAnswerTheStoredField := fun _ _ hr =>
  ⟨withRecord_some hr _, withRecord_some hr _, withRecord_some hr _, withRecord_some hr _, withRecord_some hr _,
    withRecord_some hr _⟩

/-- `VAL[8]` and the number do not overlap (30_encoding.md R64). -/
theorem valAck_eq_add (a : Byte) : valAck a = 0x100 + a.setWidth 32 := by
  revert a
  decide

/-- `VAL[8]` of a GETACK answer that reports absence. -/
theorem Response.word_okAbsent_bit (k : Nat) : (Response.okAbsent.word k).getLsbD 8 = false := by
  simpa using congrArg (·.getLsbD 0) (Response.word_okAbsent_upper k)

/-- Settles O38: the ACK bit decides between the two answers, and the invariant ties the number to the bit. -/
theorem getackReportsPresence : Obligations.GetackReportsPresence := by
  intro s r hr
  refine ⟨fun a hset ha => ?present, fun hclear => ⟨?absent, fun k => ⟨Response.word_okAbsent_bit k, rfl⟩⟩,
    fun hwf hset => ?number⟩
  case present =>
    rw [← valAck_eq_add]
    refine ((withRecord_some hr _).trans (if_pos hset)).trans ?_
    rw [ha]
    rfl
  case absent => exact (withRecord_some hr _).trans (if_neg (by rw [ackSet, hclear]; nofun))
  case number =>
    obtain ⟨-, -, hsr⟩ := (State.wf_iff s).1 hwf
    obtain ⟨-, -, -, -, -, -, hack⟩ := (Record.wf_iff r).1 (hsr r hr)
    exact Option.isSome_iff_exists.1 (hack.trans hset)

section RegionReads
variable {s : State} {region : Record → List Byte} {n : Record → Nat} {r : Record} {idx : Nat} (hr : s.sr = some r)
include hr

/-- RDHEXT and RDTPAY past their region (60_exceptions.md R149). -/
theorem readRegion_past (h : n r ≤ idx) :
    withRecord s (fun r => readRegion s (region r) (n r) idx) = answerRefused s :=
  (withRecord_some hr _).trans (if_neg (Nat.not_lt.2 h))

/-- RDHEXT and RDTPAY within their region. -/
theorem readRegion_within {b : Byte} (h : idx < n r) (hb : (region r)[idx]? = some b) :
    withRecord s (fun r => readRegion s (region r) (n r) idx) = answerOk s (b.setWidth 32) := by
  refine (withRecord_some hr _).trans ((if_pos h).trans ?_)
  rw [List.getD_eq_getElem?_getD, hb, Option.getD_some]

end RegionReads

/-- Settles O39: the index check of both regions, and where a region stands in the image. -/
theorem regionReadsAndTheirIndexCheck : Obligations.RegionReadsAndTheirIndexCheck := by
  refine ⟨fun s idx hnone => ⟨withRecord_none hnone _, withRecord_none hnone _⟩, fun s r idx hr => ?_⟩
  refine ⟨fun h => readRegion_past hr h, fun h => readRegion_past hr h, fun b h hb => readRegion_within hr h hb,
    fun b h hb => readRegion_within hr h hb, fun hwf h => ?hext, fun hwf h => ?tpay⟩
  all_goals
    obtain ⟨-, -, hsr⟩ := (State.wf_iff s).1 hwf
    obtain ⟨h6, -, hhext, htpay, -⟩ := (Record.wf_iff r).1 (hsr r hr)
  case hext =>
    have hidx : idx.toNat < r.hext.length := by rwa [hhext]
    rw [Record.byteAt_hext h, List.getD_eq_getElem _ _ hidx, List.getElem?_eq_getElem hidx]
  case tpay =>
    have hidx : idx.toNat < r.tpay.length := by rwa [htpay]
    rw [Record.byteAt_tpay h6, List.getD_eq_getElem _ _ hidx, List.getElem?_eq_getElem hidx]

/-- Settles O40: the counter alone is written, and no byte of the image comes from it. -/
theorem setretxWritesTheCounter : Obligations.SetretxWritesTheCounter := by
  refine ⟨fun w => ?decode, fun s n hnone => withRecord_none hnone _, fun s r n hr => withRecord_some hr _,
    fun r n => ⟨rfl, rfl⟩⟩
  obtain ⟨-, -, -, -, -, -, -, -, -, -, -, -, -, -, -, hsetretx, -⟩ := operationCodeSelectsCommand w
  exact hsetretx

/-- Settles O41: the ACK bit and the number are written, and the variant does not depend on that bit once one is
selected. -/
theorem setackPiggybacksTheNumber : Obligations.SetackPiggybacksTheNumber := by
  refine ⟨fun w => ?decode, fun s a hnone => withRecord_none hnone _, fun s r a hr => withRecord_some hr _,
    fun r hwf => ?type⟩
  case decode =>
    obtain ⟨-, -, -, -, -, -, -, -, -, -, -, -, -, -, -, -, hsetack⟩ := operationCodeSelectsCommand w
    exact hsetack
  case type =>
    obtain ⟨-, -, -, -, htype, -⟩ := (Record.wf_iff r).1 hwf
    exact dispatch_withAck htype

end Sys2Proof.Machine

/-! ## The statements of 41_segment_facade.md: DESCRIBE -/

namespace Sys2Proof.Machine

theorem digit_toNat {d : Nat} (h : d < 10) : (digit d).toNat = 0x30 + d := by
  rw [digit, BitVec.toNat_ofNat, Nat.mod_eq_of_lt (by omega)]

/-- The loop of `dec` gives the decimal digits, the most significant first. -/
theorem decLoop_eq_digits {k v : Nat} (hk : v ≤ k) (hv : v ≠ 0) :
    decLoop k v = ((Nat.digits 10 v).map digit).reverse := by
  induction k generalizing v with
  | zero => omega
  | succ k ih =>
    rw [decLoop]
    split
    · rw [Nat.digits_of_lt 10 v hv ‹_›]
      rfl
    · rw [Nat.digits_def' (by decide) (by omega), List.map_cons, List.reverse_cons, ih (by omega) (by omega)]

theorem dec_eq_digits {v : Nat} (hv : v ≠ 0) : dec v = ((Nat.digits 10 v).map digit).reverse :=
  decLoop_eq_digits (Nat.le_refl v) hv

/-- A number below 10^k has between one and k digits. -/
theorem dec_length {v k : Nat} (hk : 0 < k) (hv : v < 10 ^ k) : 1 ≤ (dec v).length ∧ (dec v).length ≤ k := by
  by_cases h0 : v = 0
  · subst h0
    exact ⟨Nat.le_refl 1, hk⟩
  · have hne : Nat.digits 10 v ≠ [] := Nat.digits_ne_nil_iff_ne_zero.2 h0
    rw [dec_eq_digits h0, List.length_reverse, List.length_map, Nat.digits_length_le_iff (by decide)]
    exact ⟨List.length_pos_of_ne_nil hne, hv⟩

/-- Settles O34: `dec` is the list of the decimal digits, of which Mathlib knows the bound, the value and the last one. -/
theorem decimalDigitsSpellTheNumber : Obligations.DecimalDigitsSpellTheNumber := by
  refine ⟨rfl, fun v => ?_⟩
  by_cases h0 : v = 0
  · subst h0
    decide
  have hlt {d : Nat} (hd : d ∈ Nat.digits 10 v) : d < 10 := Nat.digits_lt_base (by decide) hd
  rw [dec_eq_digits h0]
  refine ⟨fun b hb => ?ascii, ?value, fun _ => ?leading⟩
  case ascii =>
    obtain ⟨d, hd, rfl⟩ := List.mem_map.1 (List.mem_reverse.1 hb)
    have := hlt hd
    rw [digit_toNat this]
    omega
  case value =>
    calc (((Nat.digits 10 v).map digit).reverse).foldl (fun a b => 10 * a + (b.toNat - 0x30)) 0
        = (Nat.digits 10 v).foldr (fun d a => 10 * a + ((digit d).toNat - 0x30)) 0 := by
          rw [List.foldl_reverse, List.foldr_map]
      _ = (Nat.digits 10 v).foldr (fun d a => d + 10 * a) 0 :=
          List.foldr_ext _ _ _ fun d hd a => by rw [digit_toNat (hlt hd)]; omega
      _ = Nat.ofDigits 10 (Nat.digits 10 v) := (Nat.ofDigits_eq_foldr 10 _).symm
      _ = v := Nat.ofDigits_digits 10 v
  case leading =>
    have hne : Nat.digits 10 v ≠ [] := Nat.digits_ne_nil_iff_ne_zero.2 h0
    rw [List.head?_reverse, List.getLast?_map, List.getLast?_eq_getLast_of_ne_nil hne, Option.map_some]
    intro hzero
    have hdigit := congrArg BitVec.toNat (Option.some.inj hzero)
    rw [digit_toNat (hlt (List.getLast_mem hne))] at hdigit
    exact Nat.getLast_digit_ne_zero 10 h0 (Nat.add_eq_left.1 hdigit)

/-- What the text says of the acknowledgment number (41_segment_facade.md R103). -/
def Record.ackText (r : Record) : List Byte :=
  if ackSet r.flags then dec r.ackByte.toNat else ['N', '/', 'A'].map ascii

theorem Record.ackText_of_set {r : Record} (h : ackSet r.flags = true) : r.ackText = dec (r.ackn.getD 0).toNat := by
  rw [Record.ackText, if_pos h, Record.ackByte, if_pos h]

theorem Record.ackText_of_clear {r : Record} (h : ¬ ackSet r.flags = true) : r.ackText = [0x4E, 0x2F, 0x41] :=
  if_neg h

/-- The text with its fixed characters as ASCII codes (41_segment_facade.md R103). -/
theorem Record.text_eq (r : Record) :
    r.text = (variantName r.type).map ascii ++ [0x20, 0x5B, 0x20, 0x53, 0x45, 0x51, 0x20, 0x3D, 0x20] ++ dec r.seq.toNat
      ++ [0x2C, 0x20, 0x41, 0x43, 0x4B, 0x20, 0x3D, 0x20] ++ r.ackText
      ++ [0x2C, 0x20, 0x4C, 0x45, 0x4E, 0x20, 0x3D, 0x20] ++ dec r.len.toNat ++ [0x20, 0x5D] :=
  rfl

theorem Record.ackText_length (r : Record) : 1 ≤ r.ackText.length ∧ r.ackText.length ≤ 3 := by
  by_cases h : ackSet r.flags = true
  · rw [Record.ackText_of_set h]
    exact dec_length (by decide) ((r.ackn.getD 0).isLt.trans (by decide))
  · rw [Record.ackText_of_clear h]
    decide

/-- The text is between 33 and 41 bytes long (41_segment_facade.md R103). -/
theorem Record.text_length (r : Record) : 33 ≤ r.text.length ∧ r.text.length ≤ 41 := by
  have hname : (variantName r.type).length = 3 := by cases r.type <;> rfl
  have hseq := dec_length (k := 3) (by decide) (r.seq.isLt.trans (by decide))
  have hack := r.ackText_length
  have hlen := dec_length (k := 5) (by decide) (r.len.isLt.trans (by decide))
  simp only [Record.text_eq, List.length_append, List.length_map, List.length_cons, List.length_nil, hname]
  omega

/-- Settles O33: the text of the statement is `Record.text`, its characters written as ASCII codes; DESCRIBE is a store
of it. -/
theorem describeWritesTheText : Obligations.DescribeWritesTheText := by
  refine ⟨fun w => ?decode, fun s off => ⟨fun hnone => withRecord_none hnone _, fun r hr => ?_⟩⟩
  case decode =>
    obtain ⟨-, -, -, -, -, hdescribe, -⟩ := operationCodeSelectsCommand w
    exact hdescribe
  intro name number txt
  have hname : name = (variantName r.type).map ascii := by
    simp only [name]
    cases r.type <;> rfl
  have hnumber : number = r.ackText := by
    simp only [number]
    split
    · exact (Record.ackText_of_set ‹_›).symm
    · exact (Record.ackText_of_clear ‹_›).symm
  have htxt : txt = r.text := by rw [Record.text_eq, ← hname, ← hnumber]
  rw [htxt]
  refine ⟨r.text_length, fun hout => (withRecord_some hr _).trans (withRange_out hout _), fun hwf hle => ?_⟩
  obtain ⟨-, ⟨hpb, -⟩, -⟩ := (State.wf_iff s).1 hwf
  exact storeRange_reads (n := fun r => r.text.length) (bytes := Record.text)
    (v := fun r => BitVec.ofNat 32 r.text.length) hpb hr rfl hle

end Sys2Proof.Machine

/-! ## The statements of 42_type_dispatcher.md: the dispatcher and the shape test -/

namespace Sys2Proof

/-- The test of a flag with a single-bit mask reads that bit. -/
theorem hasFlag_twoPow (f : Byte) (i : Nat) : hasFlag f (BitVec.twoPow 8 i) = f.getLsbD i := by
  rw [hasFlag, BitVec.and_twoPow]
  cases hbit : f.getLsbD i with
  | false => rfl
  | true =>
    have hne : BitVec.twoPow 8 i ≠ 0 := fun hzero => by
      have hi := congrArg (BitVec.getLsbD · i) hzero
      simp [BitVec.lt_of_getLsbD hbit] at hi
    exact bne_iff_ne.2 hne

/-- Settles O6: the mask of each flag is the power of two of its bit. -/
theorem dispatchFollowsPrecedence : Obligations.DispatchFollowsPrecedence := by
  intro f len
  have hsyn : hasFlag f fSyn = f.getLsbD 7 := hasFlag_twoPow f 7
  have hnul : hasFlag f fNul = f.getLsbD 3 := hasFlag_twoPow f 3
  have heak : hasFlag f fEak = f.getLsbD 5 := hasFlag_twoPow f 5
  have hrst : hasFlag f fRst = f.getLsbD 4 := hasFlag_twoPow f 4
  have hclz : hasFlag f fClz = f.getLsbD 0 := hasFlag_twoPow f 0
  have hfin : hasFlag f fFin = f.getLsbD 1 := hasFlag_twoPow f 1
  have hack : hasFlag f fAck = f.getLsbD 6 := hasFlag_twoPow f 6
  rw [dispatch, hsyn, hnul, heak, hrst, hclz, hfin, hack, minHdr]

/-- The variants without a payload, by name (30_encoding.md R59). -/
theorem Variant.noPayload_iff (t : Variant) :
    t.noPayload = true ↔ (t = .nul ∨ t = .rst ∨ t = .clz ∨ t = .fin ∨ t = .ack) := by
  cases t <;> decide

/-- A selected variant has a payload exactly for a SYN's, an EAK's and a DAT's flags byte and length
(30_encoding.md R55). -/
theorem noPayload_eq_false_iff_of_dispatch {f : Byte} {len : Nat} {t : Variant} (h : dispatch f len = some t) :
    t.noPayload = false ↔ (f &&& 0x80 ≠ 0 ∨ f &&& 0xA8 = 0x20 ∨ (f &&& 0xFB = 0x40 ∧ len ≠ 6)) := by
  have htable : ∀ n ∈ [minHdr, 0], ∀ f : Byte, ∀ t ∈ selectRow f n,
      (t.noPayload = false ↔ (f &&& 0x80 ≠ 0 ∨ f &&& 0xA8 = 0x20 ∨ (f &&& 0xFB = 0x40 ∧ n ≠ 6))) := by decide
  rw [← selectRow_eq_dispatch] at h
  by_cases hlen : len = minHdr
  · exact htable len (by simp [hlen]) f t h
  · have hlen6 : len ≠ 6 := hlen
    rw [selectRow_eq_zero f hlen] at h
    simpa [hlen6] using htable 0 (by simp) f t h

/-- Some variant is selected exactly when a bit other than CHK is set (30_encoding.md R57). -/
theorem exists_dispatch_iff (f : Byte) (len : Nat) : (∃ t, dispatch f len = some t) ↔ f &&& 0xFB ≠ 0 := by
  have hmask : ∀ f : Byte, (f = 0x00 ∨ f = 0x04) ↔ f &&& 0xFB = 0 := by decide
  rw [← Option.ne_none_iff_exists', Ne, dispatch_eq_none_iff, hmask]

end Sys2Proof

namespace Sys2Proof.Machine

/-- The shape test, clause by clause (42_type_dispatcher.md R112). -/
theorem shapeOk_iff (t : Variant) (hlen len : Nat) :
    shapeOk t hlen len = true ↔ 6 ≤ hlen ∧ hlen ≤ len ∧ (t.noPayload = true → hlen = 6 ∧ len = 6) := by
  refine ⟨fun h => ?accepts, fun ⟨h6, hle, hpay⟩ => ?accepted⟩
  case accepts =>
    obtain ⟨h6, hle⟩ := shapeOk_bounds h
    exact ⟨h6, hle, fun ht => shapeOk_noPayload ht h⟩
  case accepted =>
    rw [shapeOk, minHdr, if_neg (Nat.not_lt.2 h6), if_neg (Nat.not_lt.2 hle)]
    split
    · obtain ⟨hh, hn⟩ := hpay ‹_›
      simp [hh, hn]
    · rfl

/-- Settles O7: the variants with an exact length are those without a payload. -/
theorem shapeTestByVariant : Obligations.ShapeTestByVariant := by
  intro t hlen len
  rw [shapeOk_iff, Variant.noPayload_iff]

/-- When a flags byte and a length select a variant and the header length passes its shape test
(42_type_dispatcher.md R117). -/
theorem exists_dispatch_shapeOk_iff (f : Byte) (hlen len : Nat) :
    (∃ t, dispatch f len = some t ∧ shapeOk t hlen len = true) ↔
      f &&& 0xFB ≠ 0 ∧ (6 ≤ hlen ∧ hlen ≤ len) ∧
        (f &&& 0x80 ≠ 0 ∨ f &&& 0xA8 = 0x20 ∨ (f &&& 0xFB = 0x40 ∧ 6 < len) ∨ (hlen = 6 ∧ len = 6)) := by
  rw [← exists_dispatch_iff f len]
  constructor
  · rintro ⟨t, hd, hs⟩
    obtain ⟨h6, hle, hpay⟩ := (shapeOk_iff t hlen len).1 hs
    refine ⟨⟨t, hd⟩, ⟨h6, hle⟩, ?_⟩
    cases ht : t.noPayload with
    | true => exact .inr (.inr (.inr (hpay ht)))
    | false =>
      rcases (noPayload_eq_false_iff_of_dispatch hd).1 ht with hsyn | heak | ⟨hdat, hne⟩
      · exact .inl hsyn
      · exact .inr (.inl heak)
      · exact .inr (.inr (.inl ⟨hdat, by omega⟩))
  · rintro ⟨⟨t, hd⟩, ⟨h6, hle⟩, hcond⟩
    refine ⟨t, hd, (shapeOk_iff t hlen len).2 ⟨h6, hle, fun ht => ?_⟩⟩
    have hnot := mt (noPayload_eq_false_iff_of_dispatch hd).2 (by simp [ht])
    rcases hcond with hsyn | heak | ⟨hdat, hlt⟩ | hmin
    · exact absurd (.inl hsyn) hnot
    · exact absurd (.inr (.inl heak)) hnot
    · exact absurd (.inr (.inr ⟨hdat, by omega⟩)) hnot
    · exact hmin

end Sys2Proof.Machine

/-! ## The statements of 42_type_dispatcher.md: PARSE -/

namespace Sys2Proof.Machine

/-- The decode with the checksum test is the one without it, after the test (41_segment_facade.md R86). -/
theorem decodeImage_checked (img : List Byte) (s : State) :
    decodeImage true img s =
      if verify img (imgFlags img) (imgHlen img).toNat then decodeImage false img s else answerInvalid s := by
  cases hv : verify img (imgFlags img) (imgHlen img).toNat with
  | true => simp [decodeImage, decodeAs, hv]
  | false =>
    rcases decodeImage_cases true img s with e | ⟨_, -, -, -, hck, -⟩
    · exact e
    · cases hv.symm.trans (hck rfl)

/-- The decode reads nothing of the state: an image is INVALID in every state, or gives the same record and tag in every
state (42_type_dispatcher.md R116). -/
theorem decodeImage_uniform (checked : Bool) (img : List Byte) :
    (∀ s, decodeImage checked img s = answerInvalid s) ∨
      ∃ r v, ∀ s : State, decodeImage checked img s = answerOk (s.load r) v := by
  by_cases hgood : ∃ t, dispatch (imgFlags img) img.length = some t ∧
      shapeOk t (imgHlen img).toNat img.length = true ∧
      (checked = true → verify img (imgFlags img) (imgHlen img).toNat = true)
  · obtain ⟨t, hd, hs, hck⟩ := hgood
    exact .inr ⟨_, _, decodeImage_ok hd hs hck⟩
  · refine .inl fun s => ?_
    rcases decodeImage_cases checked img s with e | ⟨t, -, hd, hs, hck, -⟩
    · exact e
    · exact absurd ⟨t, hd, hs, hck⟩ hgood

/-- A shorter range is the front of a longer one. -/
theorem Memory.readRange_take (m : Memory) (a : Nat) {k n : Nat} (h : k ≤ n) :
    (m.readRange a n).take k = m.readRange a k := by
  rw [Memory.readRange_eq_bytesOf, bytesOf_take h, ← Memory.readRange_eq_bytesOf]

/-- The zero-sum test on a range of PB sums the front of the range that the checksum covers (40_checksum_engine.md R78). -/
theorem verify_readRange (m : Memory) (a : Nat) (flags : Byte) {hlen n : Nat} (hle : hlen ≤ n) :
    verify (m.readRange a n) flags hlen = true ↔ cksum (m.readRange a (cov flags hlen n)) = 0x0000 := by
  have hcov : cov flags hlen n ≤ n := by
    rw [cov]
    split <;> omega
  rw [verify, Memory.readRange_length, Memory.readRange_take m a hcov, beq_iff_eq]

/-- PARSE of a range that passes the end of PB (60_exceptions.md R146). -/
theorem exec_parse_out {s : State} {off len : Half} (h : s.cfg.pbBytes < off.toNat + len.toNat) :
    exec (.parse off len) s = answerRefused s :=
  withRange_out h _

/-- PARSE of a range of PB is the decode of its bytes. -/
theorem exec_parse_in {s : State} {off len : Half} (h : off.toNat + len.toNat ≤ s.cfg.pbBytes) :
    exec (.parse off len) s = decodeImage true (s.pb.readRange off.toNat len.toNat) s :=
  withRange_in h _

section InRange
variable {s : State} {off len : Half} (hin : off.toNat + len.toNat ≤ s.cfg.pbBytes)
include hin

/-- PARSE of a range whose first two bytes and length give a variant whose shape the segment has: the checksum decides
(42_type_dispatcher.md R113). -/
theorem exec_parse_of_shape {t : Variant} (hd : dispatch (s.pb.read off.toNat) len.toNat = some t)
    (hs : shapeOk t (s.pb.read (off.toNat + 1)).toNat len.toNat = true) :
    exec (.parse off len) s =
      if cksum (s.pb.readRange off.toNat
          (cov (s.pb.read off.toNat) (s.pb.read (off.toNat + 1)).toNat len.toNat)) = 0x0000 then
        answerOk (s.load (wireRecord t len fun k => s.pb.read (off.toNat + k))) (valTag t)
      else answerInvalid s := by
  obtain ⟨h6, hle⟩ := shapeOk_bounds hs
  have hflags : imgFlags (s.pb.readRange off.toNat len.toNat) = s.pb.read off.toNat :=
    Memory.readRange_getD _ _ _ _ (by omega)
  have hhlen : imgHlen (s.pb.readRange off.toNat len.toNat) = s.pb.read (off.toNat + 1) :=
    Memory.readRange_getD _ _ _ _ (by omega)
  have hbuild : decodeImage false (s.pb.readRange off.toNat len.toNat) s = _ :=
    (withRange_in hin _).symm.trans (exec_build_ok hin hd hs)
  rw [exec_parse_in hin, decodeImage_checked, hflags, hhlen, hbuild]
  simp only [verify_readRange _ _ _ hle]

/-- When PARSE, in range, answers OK: a variant is selected, its shape test passes, and the region sums to zero
(42_type_dispatcher.md R117). -/
theorem exec_parse_ok_iff :
    (∃ t v, exec (.parse off len) s = .next t ∧ t.rsp = some (.ok v)) ↔
      (∃ t, dispatch (s.pb.read off.toNat) len.toNat = some t ∧
        shapeOk t (s.pb.read (off.toNat + 1)).toNat len.toNat = true) ∧
      cksum (s.pb.readRange off.toNat
        (cov (s.pb.read off.toNat) (s.pb.read (off.toNat + 1)).toNat len.toNat)) = 0x0000 := by
  have hinvalid : ¬ ∃ t v, answerInvalid s = .next t ∧ t.rsp = some (.ok v) := by
    rintro ⟨_, _, ⟨⟩, ⟨⟩⟩
  by_cases hgood : ∃ t, dispatch (s.pb.read off.toNat) len.toNat = some t ∧
      shapeOk t (s.pb.read (off.toNat + 1)).toNat len.toNat = true
  · obtain ⟨t, hd, hs⟩ := hgood
    rw [exec_parse_of_shape hin hd hs]
    split
    next hsum => exact ⟨fun _ => ⟨⟨t, hd, hs⟩, hsum⟩, fun _ => ⟨_, _, rfl, rfl⟩⟩
    next hsum => exact ⟨fun h => absurd h hinvalid, fun h => absurd h.2 hsum⟩
  · have hbad := (exec_parse_build_invalid hin fun t _ hd => Bool.eq_false_iff.2 fun hs => hgood ⟨t, hd, hs⟩).1
    rw [hbad]
    exact ⟨fun h => absurd h hinvalid, fun h => absurd h.1 hgood⟩

end InRange

/-- Settles O19: out of range PARSE is REFUSED; else the first two bytes and the length decide whether the segment is
INVALID, and the checksum of the region decides the rest. -/
theorem parseCommand : Obligations.ParseCommand := by
  refine ⟨fun w => ?decode, fun s off len => ?outcomes⟩
  case decode =>
    obtain ⟨-, hparse, -⟩ := operationCodeSelectsCommand w
    exact hparse
  case outcomes =>
    refine ⟨exec_parse_out, fun hin hn => ?short, fun hin hn hd => ?noVariant, fun t hin hn hd hs => ?badShape,
      fun t hin hn hd hs hsum => ?badSum, fun t hin hn hd hs hsum => ?success⟩
    case short => exact (exec_parse_build_invalid hin fun t h6 _ => absurd h6 (Nat.not_le.2 hn)).1
    case noVariant => exact (exec_parse_build_invalid hin fun t _ ht => by cases hd.symm.trans ht).1
    case badShape => exact (exec_parse_build_invalid hin fun t' _ ht => by cases hd.symm.trans ht; exact hs).1
    all_goals rw [← Memory.readRange_eq_bytesOf] at hsum
    case badSum => exact (exec_parse_of_shape hin hd hs).trans (if_neg hsum)
    case success => exact (exec_parse_of_shape hin hd hs).trans (if_pos hsum)

/-- Settles O20: the variant and its shape, and the checksum as a fold. -/
theorem parseSucceedsExactlyWhen : Obligations.ParseSucceedsExactlyWhen := by
  intro s off len hin n f h
  have hchk : ∀ f : Byte, chkSet f = true ↔ f &&& 0x04 ≠ 0 := by decide
  rw [exec_parse_ok_iff hin, exists_dispatch_shapeOk_iff, cksum_eq_zero_iff_fold]
  simp only [cov, hchk]
  constructor
  · rintro ⟨⟨hflags, ⟨h6, hle⟩, hshape⟩, hfold⟩
    exact ⟨h6.trans hle, hflags, ⟨h6, hle⟩, hshape, hfold⟩
  · rintro ⟨-, hflags, hbounds, hshape, hfold⟩
    exact ⟨⟨hflags, hbounds, hshape⟩, hfold⟩

/-- Settles O21: the range is in PB for both states or for neither, and the decode sees only its bytes. -/
theorem parseDependsOnlyOnItsBytes : Obligations.ParseDependsOnlyOnItsBytes := by
  intro s₁ s₂ off len hcfg hbytes
  rcases Nat.lt_or_ge s₁.cfg.pbBytes (off.toNat + len.toNat) with hout | hin
  · exact ⟨_, _, .refused, exec_parse_out hout, exec_parse_out (hcfg ▸ hout), rfl, rfl, fun h => absurd rfl h, nofun⟩
  have himg : s₁.pb.readRange off.toNat len.toNat = s₂.pb.readRange off.toNat len.toNat := by
    simp only [Memory.readRange_eq_bytesOf, bytesOf_congr hbytes]
  rw [exec_parse_in hin, exec_parse_in (hcfg ▸ hin), himg]
  rcases decodeImage_uniform true (s₂.pb.readRange off.toNat len.toNat) with hinvalid | ⟨r, v, hok⟩
  · exact ⟨_, _, .invalid, hinvalid s₁, hinvalid s₂, rfl, rfl, fun _ => rfl, fun _ => rfl⟩
  · exact ⟨_, _, .ok v, hok s₁, hok s₂, rfl, rfl, fun _ => rfl, nofun⟩

end Sys2Proof.Machine

/-! ## The statements of 43_segment_variants.md -/

namespace Sys2Proof.Machine

/-- A presented segment runs the decode of its image with the checksum test, the one of PARSE
(43_segment_variants.md R125). -/
theorem exec_variantInstr {v : Option Variant} {img : List Byte} (hsel : imgSelects v img = true) (s : State) :
    exec (variantInstr v img) s = decodeImage true img s := by
  obtain ⟨⟨hmin, -⟩, hrow⟩ := (imgSelects_iff v img).1 hsel
  have hd : dispatch (imgFlags img) img.length = v := (selectRow_eq_dispatch _ _).symm.trans hrow
  rw [decodeImage, if_neg (Nat.not_lt.2 hmin), hd]
  cases v with
  | none => exact if_pos hsel
  | some t =>
    have hrun : exec (variantInstr (some t) img) s = runVariant t img s := by cases t <;> rfl
    exact hrun.trans (if_pos hsel)

/-- Settles O29: a decoded image is one its row selects, so both sides are the decode of the image; an image of PB is
never too long, so it fails to decode only when it is too short. -/
theorem parseDelegatesToTheVariant : Obligations.ParseDelegatesToTheVariant := by
  intro s off len hin
  have hlen := s.pb.readRange_length off.toNat len.toNat
  generalize himg : s.pb.readRange off.toNat len.toNat = img at hlen ⊢
  have hparse : exec (.parse off len) s = decodeImage true img s := himg ▸ exec_parse_in hin
  rw [hparse]
  rcases Nat.lt_or_ge img.length minHdr with hshort | hmin
  · have herr : decode (.seg img) = .error (.truncated img.length) := if_pos hshort
    refine ⟨fun i hi => ?_, fun _ => ⟨hlen ▸ hshort, if_pos hshort⟩⟩
    cases herr.symm.trans hi
  · have hsel : imgSelects (selectRow (img.getD 0 0) img.length) img = true :=
      (imgSelects_iff _ _).2 ⟨⟨hmin, by omega⟩, rfl⟩
    have hok : decode (.seg img) = .ok (variantInstr _ img) := decodeSeg_of_selects hsel
    refine ⟨fun i hi => ?_, fun hnone => absurd hok (hnone _)⟩
    cases hok.symm.trans hi
    exact (exec_variantInstr hsel s).symm

/-- A row of the table that matches selects the image (30_encoding.md R55). -/
theorem imgSelects_of_hits (r : VariantRow) (hr : r ∈ variantRows) {img : List Byte} (hmin : 6 ≤ img.length)
    (hmax : img.length ≤ 65535) (hf : img.getD 0 0 &&& r.mask = r.pattern) (hlen : r.len.holds img.length = true) :
    imgSelects r.variant img = true :=
  (imgSelects_iff _ _).2 ⟨⟨hmin, hmax⟩, (selectRow_eq_dispatch _ _).trans (dispatch_of_hits r hr hf hlen)⟩

/-- The record of an image, by its bytes (30_encoding.md R54). -/
theorem recordOf_eq_wireRecord (t : Variant) {img : List Byte} (hmax : img.length ≤ 65535)
    (h6 : 6 ≤ (imgHlen img).toNat) (hle : (imgHlen img).toNat ≤ img.length) :
    recordOf t img = wireRecord t (BitVec.ofNat 16 img.length) fun k => img.getD k 0 := by
  have hlen : (BitVec.ofNat 16 img.length).toNat = img.length := recordOf_len (t := t) hmax
  have himg : bytesOf img.length (fun k => img.getD k 0) = img :=
    (eq_bytesOf rfl fun k hk => (List.getD_eq_getElem img 0 hk).symm).symm
  have hrec := recordOf_bytesOf (len := BitVec.ofNat 16 img.length) (byte := fun k => img.getD k 0) t h6
    (hlen.symm ▸ hle)
  rwa [hlen, himg] at hrec

/-- The record of a segment that is only a minimal header (30_encoding.md R59). -/
theorem recordOf_minHdr (t : Variant) {img : List Byte} (hh : (imgHlen img).toNat = 6) (hn : img.length = 6) :
    recordOf t img =
      { flags := imgFlags img, hlen := imgHlen img, seq := imgSeq img, ackn := imgAckn img, len := 6, type := t,
        hext := [], tpay := [], retx := 0 } := by
  simp [recordOf, slice, hh, hn]

/-- The zero-sum test is on the coverage region (40_checksum_engine.md R78). -/
theorem verify_iff (img : List Byte) (flags : Byte) (hlen : Nat) :
    verify img flags hlen = true ↔ cksum (img.take (cov flags hlen img.length)) = 0 :=
  beq_iff_eq

/-- When the header is the whole segment, the checksum covers it all, CHK set or not (40_checksum_engine.md R76). -/
theorem verify_length_iff (img : List Byte) (flags : Byte) :
    verify img flags img.length = true ↔ cksum img = 0 := by
  rw [verify_iff, cov, ite_self, List.take_length]

section Selected
variable {t : Variant} {img : List Byte} (hsel : imgSelects (some t) img = true) (s : State)
include hsel

theorem dispatch_of_selects : dispatch (imgFlags img) img.length = some t :=
  (selectRow_eq_dispatch _ _).symm.trans ((imgSelects_iff _ _).1 hsel).2

/-- A presented segment whose shape is not that of its variant (43_segment_variants.md R125). -/
theorem exec_variantInstr_of_not_shape (hs : ¬ shapeOk t (imgHlen img).toNat img.length = true) :
    exec (variantInstr (some t) img) s = answerInvalid s := by
  rw [exec_variantInstr hsel]
  refine decodeImage_invalid (fun t' _ ht' => ?_) s
  cases (dispatch_of_selects hsel).symm.trans ht'
  exact Bool.eq_false_iff.2 hs

/-- A presented segment of the shape of its variant: the checksum decides (43_segment_variants.md R125). -/
theorem exec_variantInstr_of_shape (hs : shapeOk t (imgHlen img).toNat img.length = true) :
    exec (variantInstr (some t) img) s =
      if verify img (imgFlags img) (imgHlen img).toNat then answerOk (s.load (recordOf t img)) (valTag t)
      else answerInvalid s := by
  rw [exec_variantInstr hsel, decodeImage_checked,
    decodeImage_ok (checked := false) (dispatch_of_selects hsel) hs nofun]

/-- A presented segment of a variant that may have a payload: `6 <= HLEN <= LEN`, a zero sum of the coverage region,
and the record of its bytes (43_segment_variants.md R126, R128, R133). -/
theorem presented_payload (ht : t.noPayload = false) :
    decode (.seg img) = .ok (variantInstr (some t) img) ∧
    (¬ (6 ≤ (imgHlen img).toNat ∧ (imgHlen img).toNat ≤ img.length) →
      exec (variantInstr (some t) img) s = answerInvalid s) ∧
    (6 ≤ (imgHlen img).toNat → (imgHlen img).toNat ≤ img.length →
      cksum (img.take (cov (imgFlags img) (imgHlen img).toNat img.length)) ≠ 0 →
      exec (variantInstr (some t) img) s = answerInvalid s) ∧
    (6 ≤ (imgHlen img).toNat → (imgHlen img).toNat ≤ img.length →
      cksum (img.take (cov (imgFlags img) (imgHlen img).toNat img.length)) = 0 →
      exec (variantInstr (some t) img) s =
        answerOk (s.load (wireRecord t (BitVec.ofNat 16 img.length) fun k => img.getD k 0)) (valTag t)) := by
  have hshape : shapeOk t (imgHlen img).toNat img.length = true ↔
      6 ≤ (imgHlen img).toNat ∧ (imgHlen img).toNat ≤ img.length := by simp [shapeOk_iff, ht]
  obtain ⟨⟨-, hmax⟩, -⟩ := (imgSelects_iff _ _).1 hsel
  refine ⟨decodeSeg_of_selects hsel, fun hbad => ?badShape, fun h6 hle hsum => ?badSum, fun h6 hle hsum => ?success⟩
  case badShape => exact exec_variantInstr_of_not_shape hsel s (mt hshape.1 hbad)
  case badSum => rw [exec_variantInstr_of_shape hsel s (hshape.2 ⟨h6, hle⟩), if_neg (mt (verify_iff _ _ _).1 hsum)]
  case success =>
    rw [exec_variantInstr_of_shape hsel s (hshape.2 ⟨h6, hle⟩), if_pos ((verify_iff _ _ _).2 hsum),
      recordOf_eq_wireRecord t hmax h6 hle]

/-- A presented segment of a variant without a payload: a header of six bytes and nothing else, with a zero sum
(43_segment_variants.md R127, R129 to R132). -/
theorem presented_noPayload (ht : t.noPayload = true) :
    decode (.seg img) = .ok (variantInstr (some t) img) ∧
    (¬ ((imgHlen img).toNat = 6 ∧ img.length = 6) → exec (variantInstr (some t) img) s = answerInvalid s) ∧
    ((imgHlen img).toNat = 6 ∧ img.length = 6 → cksum img ≠ 0 →
      exec (variantInstr (some t) img) s = answerInvalid s) ∧
    ((imgHlen img).toNat = 6 ∧ img.length = 6 → cksum img = 0 →
      exec (variantInstr (some t) img) s =
        answerOk (s.load { flags := imgFlags img, hlen := imgHlen img, seq := imgSeq img, ackn := imgAckn img,
                           len := 6, type := t, hext := [], tpay := [], retx := 0 }) (valTag t)) := by
  have hshape (hh : (imgHlen img).toNat = 6) (hn : img.length = 6) :
      shapeOk t (imgHlen img).toNat img.length = true := by simp [shapeOk_iff, hh, hn]
  have hverify (hh : (imgHlen img).toNat = 6) (hn : img.length = 6) :
      verify img (imgFlags img) (imgHlen img).toNat = true ↔ cksum img = 0 := by
    rw [hh.trans hn.symm, verify_length_iff]
  refine ⟨decodeSeg_of_selects hsel, fun hbad => ?badShape, fun ⟨hh, hn⟩ hsum => ?badSum,
    fun ⟨hh, hn⟩ hsum => ?success⟩
  case badShape => exact exec_variantInstr_of_not_shape hsel s (mt (shapeOk_noPayload ht) hbad)
  case badSum => rw [exec_variantInstr_of_shape hsel s (hshape hh hn), if_neg (mt (hverify hh hn).1 hsum)]
  case success =>
    rw [exec_variantInstr_of_shape hsel s (hshape hh hn), if_pos ((hverify hh hn).2 hsum), recordOf_minHdr t hh hn]

end Selected

/-- Settles O25: the row's mask selects the image, and both variants may have a payload. -/
theorem synAndEakVariants : Obligations.SynAndEakVariants := by
  intro s img hmin hmax byte h invalid sum
  refine ⟨fun hf => ?syn, fun hf => ?eak⟩
  case syn =>
    exact presented_payload (imgSelects_of_hits ⟨some .syn, 0x80, 0x80, .any⟩ (by decide) hmin hmax hf rfl) s rfl
  case eak =>
    exact presented_payload (imgSelects_of_hits ⟨some .eak, 0xA8, 0x20, .any⟩ (by decide) hmin hmax hf rfl) s rfl

/-- Settles O26: the row's mask selects the image, and none of the four variants has a payload. -/
theorem payloadlessVariants : Obligations.PayloadlessVariants := by
  intro s img hmin hmax byte h invalid loaded good
  refine ⟨fun hf => ?nul, fun hf => ?rst, fun hf => ?clz, fun hf => ?fin⟩
  case nul =>
    exact presented_noPayload (imgSelects_of_hits ⟨some .nul, 0x88, 0x08, .any⟩ (by decide) hmin hmax hf rfl) s rfl
  case rst =>
    exact presented_noPayload (imgSelects_of_hits ⟨some .rst, 0xB8, 0x10, .any⟩ (by decide) hmin hmax hf rfl) s rfl
  case clz =>
    exact presented_noPayload (imgSelects_of_hits ⟨some .clz, 0xB9, 0x01, .any⟩ (by decide) hmin hmax hf rfl) s rfl
  case fin =>
    exact presented_noPayload (imgSelects_of_hits ⟨some .fin, 0xBB, 0x02, .any⟩ (by decide) hmin hmax hf rfl) s rfl

/-- Settles O27: the two flags bytes match both rows, so the length decides; ACK has no payload, DAT may have one, and
bit 6 gives both the number. -/
theorem ackAndDatVariants : Obligations.AckAndDatVariants := by
  intro s img hmin hmax hf byte h invalid sum
  have hflags : byte 0 &&& 0xFB = 0x40 ∧ ackSet (byte 0) = true ∧ (chkSet (byte 0) = true ↔ byte 0 = 0x44) := by
    have hf : byte 0 = 0x40 ∨ byte 0 = 0x44 := hf
    rcases hf with e | e <;> rw [e] <;> decide
  obtain ⟨hmask, hack, hchk⟩ := hflags
  have hackn : imgAckn img = some (byte 3) := if_pos hack
  refine ⟨fun hn => ?ack, fun hn => ?dat⟩
  case ack =>
    have hsel := imgSelects_of_hits ⟨some .ack, 0xFB, 0x40, .isMin⟩ (by decide) hmin hmax hmask (beq_iff_eq.2 hn)
    obtain ⟨hdec, hshape, hsum, hok⟩ := presented_noPayload hsel s rfl
    refine ⟨hdec, fun hh => hshape fun ⟨h6, _⟩ => hh h6, fun hh => hsum ⟨hh, hn⟩, fun hh h0 => ?_⟩
    have hhlen : imgHlen img = 6 := BitVec.eq_of_toNat_eq hh
    rw [hhlen, hackn] at hok
    exact hok ⟨rfl, hn⟩ h0
  case dat =>
    have hsel := imgSelects_of_hits ⟨some .dat, 0xFB, 0x40, .notMin⟩ (by decide) hmin hmax hmask (bne_iff_ne.2 hn)
    have hcov : cov (byte 0) h img.length = if byte 0 = 0x44 then img.length else h := by simp only [cov, hchk]
    obtain ⟨hdec, hshape, hsum, hok⟩ := presented_payload hsel s rfl
    exact ⟨hdec, hshape, fun h6 hle hne => hsum h6 hle (hcov ▸ hne), fun h6 hle h0 =>
      ⟨_, hackn, rfl, hok h6 hle (hcov ▸ h0)⟩⟩

end Sys2Proof.Machine

/-! ## The ends of a command (60_exceptions.md) -/

namespace Sys2Proof.Machine

/-- How a command ends from `s`, given whether it is to be refused: REFUSED with nothing changed, or in a next state
with another response. -/
def Ends (s : State) (x : Result) : Bool → Prop
  | true => x = answerRefused s
  | false => ∃ t, x = .next t ∧ t.rsp ≠ some .refused

section Ends
variable {s : State}

/-- Refused or not, a command ends in a next state (60_exceptions.md R140). -/
theorem Ends.exists_next {x : Result} {refuses : Bool} (h : Ends s x refuses) : ∃ t, x = .next t := by
  cases refuses with
  | true => exact ⟨_, h⟩
  | false => obtain ⟨t, ht, -⟩ := h; exact ⟨t, ht⟩

/-- A command that answers REFUSED changes nothing else (60_exceptions.md R145). -/
theorem Ends.eq_of_rsp {t : State} {refuses : Bool} (h : Ends s (.next t) refuses) (ht : t.rsp = some .refused) :
    t = s.respond .refused := by
  cases refuses with
  | true => exact (answerRefused_eq_next s t).1 h.symm
  | false =>
    obtain ⟨u, ⟨⟩, hu⟩ := h
    exact absurd ht hu

/-- The response tells whether the command was to be refused. -/
theorem Ends.rsp_iff {t : State} {refuses : Bool} (h : Ends s (.next t) refuses) :
    t.rsp = some .refused ↔ refuses = true := by
  cases refuses with
  | true => simp [(answerRefused_eq_next s t).1 h.symm]
  | false =>
    obtain ⟨u, ⟨⟩, hu⟩ := h
    simp [hu]

theorem answerOk_ends (u : State) (v : Word) : Ends s (answerOk u v) false := ⟨_, rfl, by simp⟩

theorem answerInvalid_ends (u : State) : Ends s (answerInvalid u) false := ⟨_, rfl, by simp⟩

/-- 60_exceptions.md R146: a range-checked command whose body is never refused is refused past the end of PB only. -/
theorem withRange_ends {body : Result} (h : Ends s body false) (off n : Nat) :
    Ends s (withRange s off n body) (decide (s.cfg.pbBytes < off + n)) := by
  rcases withRange_cases s off n body with ⟨hlt, e⟩ | ⟨hle, e⟩ <;> rw [e]
  · rw [decide_eq_true hlt]; rfl
  · rwa [decide_eq_false (Nat.not_lt.2 hle)]

/-- 60_exceptions.md R147: a command on the record is refused when there is none, or on what its body is refused on. -/
theorem withRecord_ends {body : Record → Result} {refuses : Record → Bool} (h : ∀ r, Ends s (body r) (refuses r)) :
    Ends s (withRecord s body) (s.sr.all refuses) := by
  rcases withRecord_cases s body with ⟨hnone, e⟩ | ⟨r, hr, e⟩ <;> rw [e]
  · rw [hnone]; rfl
  · rw [hr]; exact h r

/-- 60_exceptions.md R147: a command whose body is never refused is refused on an empty record only. -/
theorem withRecord_ends_isNone {body : Record → Result} (h : ∀ r, Ends s (body r) false) :
    Ends s (withRecord s body) s.sr.isNone := by
  have hall : s.sr.all (fun _ => false) = s.sr.isNone := by cases s.sr <;> rfl
  exact hall ▸ withRecord_ends h

/-- 60_exceptions.md R149: an indexed read is refused past the region. -/
theorem readRegion_ends (region : List Byte) (n idx : Nat) :
    Ends s (readRegion s region n idx) (decide (n ≤ idx)) := by
  rcases readRegion_cases s region n idx with ⟨hlt, e⟩ | ⟨hle, e⟩ <;> rw [e]
  · rw [decide_eq_false (Nat.not_le.2 hlt)]; exact answerOk_ends s _
  · rw [decide_eq_true hle]; rfl

theorem execGetack_ends : Ends s (execGetack s) s.sr.isNone := by
  refine withRecord_ends_isNone fun r => ?_
  split
  · exact answerOk_ends s _
  · exact ⟨_, rfl, by simp⟩

theorem decodeImage_ends (checked : Bool) (img : List Byte) : Ends s (decodeImage checked img s) false := by
  rcases decodeImage_cases checked img s with e | ⟨t, -, -, -, -, e⟩ <;> rw [e]
  · exact answerInvalid_ends s
  · exact answerOk_ends _ _

/-- A presented segment of any row is decoded, and a decode is never refused (60_exceptions.md R145). -/
theorem variantInstr_ends {v : Option Variant} {img : List Byte} (hsel : imgSelects v img = true) :
    Ends s (exec (variantInstr v img) s) false :=
  exec_variantInstr hsel s ▸ decodeImage_ends true img

/-- Every well-formed instruction is refused exactly on the conditions of 60_exceptions.md R146, R147 and R149, and
answers otherwise. -/
theorem exec_ends (s : State) {i : Instr} (hwf : i.wf = true) : Ends s (exec i s) (refusedOn s i) := by
  cases i with
  | cksum off len => exact withRange_ends (answerOk_ends s _) _ _
  | parse off len | build off len => exact withRange_ends (decodeImage_ends _ _) _ _
  | ser off | serc off | describe off =>
    exact withRecord_ends fun r => withRange_ends (answerOk_ends _ _) _ _
  | getflags | gethlen | getseq | getlen | gettype | getretx | setretx n | setack a =>
    exact withRecord_ends_isNone fun r => answerOk_ends _ _
  | getack => exact execGetack_ends
  | rdhext idx | rdtpay idx => exact withRecord_ends fun r => readRegion_ends _ _ _
  | variantSyn img => exact variantInstr_ends (v := some .syn) hwf
  | variantNul img => exact variantInstr_ends (v := some .nul) hwf
  | variantEak img => exact variantInstr_ends (v := some .eak) hwf
  | variantRst img => exact variantInstr_ends (v := some .rst) hwf
  | variantClz img => exact variantInstr_ends (v := some .clz) hwf
  | variantFin img => exact variantInstr_ends (v := some .fin) hwf
  | variantAck img => exact variantInstr_ends (v := some .ack) hwf
  | variantDat img => exact variantInstr_ends (v := some .dat) hwf
  | variantNone img => exact variantInstr_ends (v := none) hwf

theorem exec_refused {i : Instr} (hwf : i.wf = true) (h : refusedOn s i = true) : exec i s = answerRefused s := by
  have hends := exec_ends s hwf
  rwa [h] at hends

theorem exec_not_refused {i : Instr} (hwf : i.wf = true) (h : refusedOn s i = false) :
    ∃ t, exec i s = .next t ∧ t.rsp ≠ some .refused := by
  have hends := exec_ends s hwf
  rwa [h] at hends

/-- A command word is refused exactly when it decodes to nothing or to a command that is refused (60_exceptions.md
R145, R148). -/
theorem serve_cmd_ends (w : CmdWord) (s : State) :
    ((∀ i, decode (.cmd w) ≠ .ok i) ∧ Ends s (serve (.cmd w) s) true) ∨
      ∃ i, decode (.cmd w) = .ok i ∧ Ends s (serve (.cmd w) s) (refusedOn s i) := by
  rcases decode_cmd_by_op w with ⟨-, i, hd⟩ | ⟨hop, hd⟩
  · exact .inr ⟨i, hd, serve_ok hd s ▸ exec_ends s (decode_cmd_ok hd).1⟩
  · exact .inl ⟨(decode_cmd_ne_ok_iff w).2 hop, serve_reservedOp hd s⟩

theorem serve_cmd_exists_next (w : CmdWord) (s : State) : ∃ t, serve (.cmd w) s = .next t := by
  rcases serve_cmd_ends w s with ⟨-, h⟩ | ⟨i, -, h⟩ <;> exact h.exists_next

end Ends

section Effect
variable {s t : State} {k : Kind}

/-- Only a decode ends INVALID, and INVALID empties SR (60_exceptions.md R143, R144). -/
theorem Effect.invalid (h : Effect s t k) (ht : t.rsp = some .invalid) :
    k = .decoder ∧ t = s.clearSr.respond .invalid := by
  cases k with
  | reader => obtain ⟨rsp, hok, rfl⟩ := h; cases ht; cases hok
  | decoder =>
    obtain rfl | ⟨_, _, -, -, -, rfl⟩ := h
    · exact ⟨rfl, rfl⟩
    · cases ht
  | storer => obtain ⟨_, _, _, -, rfl⟩ := h; cases ht
  | retxSetter n | acknSetter a => obtain ⟨_, -, rfl⟩ := h; cases ht

/-- `t` comes from `s` with one response, the parameters and the host's other actions as they were. -/
def Answered (s t : State) : Prop :=
  ∃ r, t.rsp = some r ∧ t.served = s.served + 1 ∧ t.cfg = s.cfg ∧ t.host = s.host

theorem Effect.answered (h : Effect s t k) : Answered s t := by
  cases k with
  | reader => obtain ⟨_, -, rfl⟩ := h; exact ⟨_, rfl, rfl, rfl, rfl⟩
  | decoder => obtain rfl | ⟨_, _, -, -, -, rfl⟩ := h <;> exact ⟨_, rfl, rfl, rfl, rfl⟩
  | storer => obtain ⟨_, _, _, -, rfl⟩ := h; exact ⟨_, rfl, rfl, rfl, rfl⟩
  | retxSetter n | acknSetter a => obtain ⟨_, -, rfl⟩ := h; exact ⟨_, rfl, rfl, rfl, rfl⟩

/-- REFUSED is one response too. -/
theorem answered_of_effect (h : t = s.respond .refused ∨ ∃ k, Effect s t k) : Answered s t := by
  obtain rfl | ⟨k, he⟩ := h
  · exact ⟨_, rfl, rfl, rfl, rfl⟩
  · exact he.answered

end Effect

/-- Settles O44: the response of a command word tells whether it was to be refused. -/
theorem refusedExactlyWhen : Obligations.RefusedExactlyWhen := by
  refine fun w s => ⟨?exactly, fun t ht hrsp => ?nothing⟩
  case exactly =>
    obtain ⟨t, ht⟩ := serve_cmd_exists_next w s
    have hends := serve_cmd_ends w s
    simp only [ht, Host.Outcome.next.injEq, exists_eq_left'] at hends ⊢
    rcases hends with ⟨hnone, h⟩ | ⟨i, hd, h⟩ <;> rw [h.rsp_iff]
    · simp [hnone]
    · simp [hd]
  case nothing =>
    rcases serve_cmd_ends w s with ⟨-, h⟩ | ⟨i, -, h⟩ <;> rw [ht] at h <;> exact h.eq_of_rsp hrsp

/-- Settles O45: INVALID is not REFUSED, so it is an effect, and the only one that is a failed decode. -/
theorem invalidEmptiesTheRecord : Obligations.InvalidEmptiesTheRecord := by
  refine ⟨fun i s t h ht => ?record, fun w s t h ht => ?commands⟩
  case record =>
    rcases exec_effect h with rfl | he
    · cases ht
    · exact (he.invalid ht).2
  case commands =>
    rcases serve_cmd_effect h with rfl | ⟨k, hop, he⟩
    · cases ht
    · obtain ⟨rfl, -⟩ := he.invalid ht
      exact hop

/-- Settles O46: refused or not, a command has a next state, and REFUSED and every effect are one response. -/
theorem everyCommandAnswers : Obligations.EveryCommandAnswers := by
  refine ⟨fun w s => ?words, fun i s hwf => ?instructions⟩
  case words =>
    obtain ⟨t, ht⟩ := serve_cmd_exists_next w s
    obtain ⟨r, hr⟩ := answered_of_effect ((serve_cmd_effect ht).imp_right fun ⟨k, _, he⟩ => ⟨k, he⟩)
    exact ⟨t, r, ht, hr⟩
  case instructions =>
    obtain ⟨t, ht⟩ := (exec_ends s hwf).exists_next
    obtain ⟨r, hr⟩ := answered_of_effect ((exec_effect ht).imp_right fun he => ⟨i.kind, he⟩)
    exact ⟨t, r, ht, hr⟩

/-- Settles O42: an empty record meets the condition of each of the fourteen. -/
theorem emptyRecordIsRefused : Obligations.EmptyRecordIsRefused := by
  intro s off idx n a hnone i hi
  obtain ⟨hwf, hcond⟩ : i.wf = true ∧ refusedOn s i = true := by
    revert i
    simp [Instr.wf, refusedOn, hnone]
  exact exec_refused hwf hcond

/-- Settles O43: the range is the condition of the six, and a range that ends at the end of PB does not meet it. -/
theorem rangePastTheEndIsRefused : Obligations.RangePastTheEndIsRefused := by
  intro s off len refused
  simp only [List.forall_mem_cons]
  refine ⟨fun h => ?past, fun r hr h => ?imagePast, fun r hr h => ?textPast, fun h => ?atEnd,
    fun r hr h => ?imageAtEnd, fun r hr h => ?textAtEnd⟩
  case past => refine ⟨?_, ?_, ?_⟩ <;> exact exec_refused rfl (decide_eq_true h)
  case imagePast => refine ⟨?_, ?_⟩ <;> exact exec_refused rfl (by simpa [refusedOn, hr] using h)
  case textPast => exact exec_refused rfl (by simpa [refusedOn, hr] using h)
  case atEnd => refine ⟨?_, ?_, ?_, nofun⟩ <;> exact exec_not_refused rfl (by simp [refusedOn, h])
  case imageAtEnd => refine ⟨?_, ?_, nofun⟩ <;> exact exec_not_refused rfl (by simp [refusedOn, hr, h])
  case textAtEnd => exact exec_not_refused rfl (by simp [refusedOn, hr, h])

/-! ## Several instances -/

section Instances
variable {k : Nat} {sys : List State}

theorem stepAt_none (h : sys[k]? = none) : stepAt k sys = .next sys := by
  simp [stepAt, h]

/-- A step in the list is the step of that state on its own, put back in its place. -/
theorem stepAt_cases {s : State} (h : sys[k]? = some s) :
    (∃ t, step s = .next t ∧ stepAt k sys = .next (sys.set k t)) ∨
      (∃ f, step s = .fault f ∧ stepAt k sys = .fault f) ∨
      (∃ r, step s = .refused r ∧ stepAt k sys = .refused r) := by
  cases hs : step s with
  | next t => exact .inl ⟨t, rfl, by simp [stepAt, h, hs]⟩
  | fault f => exact .inr (.inl ⟨f, rfl, by simp [stepAt, h, hs]⟩)
  | refused r => exact .inr (.inr ⟨r, rfl, by simp [stepAt, h, hs]⟩)

/-- A step in the list that leads on replaces the entry that takes it at most. -/
theorem stepAt_next {sys' : List State} (h : stepAt k sys = .next sys') : sys' = sys ∨ ∃ t, sys' = sys.set k t := by
  cases hk : sys[k]? with
  | none => rw [stepAt_none hk] at h; cases h; exact .inl rfl
  | some s =>
    rcases stepAt_cases hk with ⟨t, -, e⟩ | ⟨f, -, e⟩ | ⟨r, -, e⟩ <;> cases e.symm.trans h
    exact .inr ⟨t, rfl⟩

end Instances

/-- Settles O56: a step replaces no entry of the list but its own, by what the step of that entry alone leads to. -/
theorem instancesShareNothing : Obligations.InstancesShareNothing := by
  refine fun k sys sys' => ⟨fun h => ?others, fun s hs => ?own⟩
  case others =>
    rcases stepAt_next h with rfl | ⟨t, rfl⟩
    · exact ⟨rfl, fun _ _ => rfl⟩
    · exact ⟨List.length_set, fun j hj => List.getElem?_set_ne hj.symm⟩
  case own =>
    have hself (t : State) : (sys.set k t)[k]? = some t :=
      List.getElem?_set_self (List.getElem?_eq_some_iff.1 hs).1
    rcases stepAt_cases hs with ⟨t, e, e'⟩ | ⟨f, e, e'⟩ | ⟨r, e, e'⟩ <;> simp [e, e', hself]

end Sys2Proof.Machine

/-! ## The statements of 70_reset_and_hazards.md -/

namespace Sys2Proof.Machine

/-- A PARSE that answers OK was in range, of a variant whose shape the segment has, with a region that sums to zero; the
value is the tag of the variant (42_type_dispatcher.md R113). -/
theorem exec_parse_ok_inv {s t : State} {off len : Half} {v : Word} (h : exec (.parse off len) s = .next t)
    (hv : t.rsp = some (.ok v)) :
    off.toNat + len.toNat ≤ s.cfg.pbBytes ∧
      ∃ u, dispatch (s.pb.read off.toNat) len.toNat = some u ∧
        shapeOk u (s.pb.read (off.toNat + 1)).toNat len.toNat = true ∧
        cksum (s.pb.readRange off.toNat
          (cov (s.pb.read off.toNat) (s.pb.read (off.toNat + 1)).toNat len.toNat)) = 0x0000 ∧
        v = valTag u := by
  rcases Nat.lt_or_ge s.cfg.pbBytes (off.toNat + len.toNat) with hout | hin
  · cases (exec_parse_out hout).symm.trans h
    cases hv
  obtain ⟨⟨u, hd, hs⟩, hsum⟩ := (exec_parse_ok_iff hin).1 ⟨t, v, h, hv⟩
  rw [exec_parse_of_shape hin hd hs, if_pos hsum] at h
  cases h
  cases hv
  exact ⟨hin, u, hd, hs, hsum, rfl⟩

/-- With CHK clear the checksum covers the header only (40_checksum_engine.md R76). -/
theorem cov_of_chk_clear {flags : Byte} (h : flags.getLsbD 2 = false) (hlen len : Nat) : cov flags hlen len = hlen :=
  if_neg (Bool.eq_false_iff.1 h)

/-- Settles O24: the variant, the shape and, with CHK clear, the checksum are those of the first HLEN bytes. -/
theorem clearChkLeavesPayloadUnprotected : Obligations.ClearChkLeavesPayloadUnprotected := by
  intro s t m off len v h hv hchk hagree
  obtain ⟨hin, u, hd, hs, hsum, rfl⟩ := exec_parse_ok_inv h hv
  obtain ⟨h6, -⟩ := shapeOk_bounds hs
  have hflags : m.read off.toNat = s.pb.read off.toNat := hagree 0 (by omega)
  have hhlen : m.read (off.toNat + 1) = s.pb.read (off.toNat + 1) := hagree 1 (by omega)
  have hheader : m.readRange off.toNat (s.pb.read (off.toNat + 1)).toNat =
      s.pb.readRange off.toNat (s.pb.read (off.toNat + 1)).toNat := by
    simp only [Memory.readRange_eq_bytesOf, bytesOf_congr hagree]
  rw [cov_of_chk_clear hchk] at hsum
  have hparse := exec_parse_of_shape (s := { s with pb := m }) hin (hflags ▸ hd) (hhlen ▸ hs)
  rw [hflags, hhlen, cov_of_chk_clear hchk, hheader, if_pos hsum] at hparse
  exact ⟨_, hparse, rfl⟩

/-- An instruction that is not refused answers, and answers something else than REFUSED (60_exceptions.md R140). -/
theorem exec_answers_not_refused {s : State} {i : Instr} (hwf : i.wf = true) (h : refusedOn s i = false) :
    ∃ t r, exec i s = .next t ∧ t.rsp = some r ∧ r ≠ .refused := by
  obtain ⟨t, ht, hne⟩ := exec_not_refused hwf h
  obtain ⟨r, hr, -⟩ := answered_of_effect ((exec_effect ht).imp_right fun he => ⟨i.kind, he⟩)
  exact ⟨t, r, ht, hr, fun he => hne (he ▸ hr)⟩

/-- Every command but CKSUM, PARSE and BUILD reads the record, so an empty one refuses it (60_exceptions.md R147). -/
theorem refusedOn_of_no_record {s : State} {w : CmdWord} {i : Instr} (hnone : s.sr = none)
    (hd : decode (.cmd w) = .ok i) (hop : cmdOp w ∉ [0x01, 0x02, 0x03]) : refusedOn s i = true := by
  obtain ⟨-, w', henc, hw'⟩ := decode_cmd_ok hd
  rw [← hw'] at hop
  cases i with
  | cksum off len | parse off len | build off len =>
    cases henc
    simp at hop
  | variantSyn img | variantNul img | variantEak img | variantRst img | variantClz img | variantFin img
  | variantAck img | variantDat img | variantNone img => cases henc
  | _ => simp [refusedOn, hnone]

/-- On an empty record every command word but those of CKSUM, PARSE and BUILD is REFUSED (60_exceptions.md R147,
R148). -/
theorem serve_cmd_of_no_record {s : State} {w : CmdWord} (hnone : s.sr = none) (hop : cmdOp w ∉ [0x01, 0x02, 0x03]) :
    serve (.cmd w) s = answerRefused s := by
  rcases serve_cmd_ends w s with ⟨-, h⟩ | ⟨i, hd, h⟩
  · exact h
  · rwa [refusedOn_of_no_record hnone hd hop] at h

/-- Settles O55: the range is the one condition of the three commands that need no record, and reset leaves none. -/
theorem afterReset : Obligations.AfterReset := by
  refine fun c m w => ⟨fun off len hin => ⟨?cksum, ?parse, ?build⟩, fun h1 h2 h3 => ?others⟩
  case cksum => exact ⟨_, exec_cksum_in hin, rfl⟩
  case parse | build => exact exec_answers_not_refused rfl (decide_eq_false (Nat.not_lt.2 hin))
  case others => exact serve_cmd_of_no_record rfl (by simpa using ⟨h1, h2, h3⟩)

end Sys2Proof.Machine
